-- ==== Sys2Proof/Word.lean ====
section
/-! DEFINITION. The words of the pixel-format transcoder: 32-bit registers and command words (00_scope.md R5,
XLEN = 32), 8-bit memory bytes (R10) and 10-bit samples (R4, SAMPLE_BITS = 10). -/

namespace Sys2Proof

/-- A register of the host port, and a command word: XLEN = 32 bits (00_scope.md R5). -/
abbrev Word := BitVec 32

/-- One byte of buffer memory (00_scope.md R10). -/
abbrev Byte := BitVec 8

/-- One sample, "an unsigned integer in [0, 1023]" (00_scope.md R4, R12). -/
abbrev Sample := BitVec 10

end Sys2Proof
end

