-- ==== Sys2Proof/Config.lean ====
section
/-! DEFINITION. The parameter the spec leaves open (00_scope.md R5, 93_implementation_defined.md U20): the address
width AW, 1 ≤ AW ≤ 32. Its value lies in the field `aw` of State, which no step writes, so that what is proved for
every state is proved for every AW (log 2). The constants of 00_scope.md R4 stand where they are used,
in Machine/Operands.lean and Machine/Colorimetry.lean. -/

namespace Sys2Proof

/-- The spec's default for AW (00_scope.md R5). -/
def Config.defaultAW : Nat := 32

/-- The values AW may take (00_scope.md R5): 1 ≤ AW ≤ 32. -/
abbrev Config.legalAW (aw : Nat) : Prop := 1 ≤ aw ∧ aw ≤ 32

end Sys2Proof
end

