-- ==== Sys2Proof/Syntax.lean ====
section
/-! DEFINITION. The syntax: the thirteen commands of spec/opcode_table.json, the fields of a command word, the three
frame layouts, the register names and the host's actions. -/

namespace Sys2Proof

/-- The document's PackedFormat tag (30_encoding.md R103). -/
inductive Layout where
  /-- packed v210, 16 bytes per 6-pixel group (20_memory.md R73 to R75) -/
  | v210
  /-- three planes Y, Cb, Cr (20_memory.md R71) -/
  | planar
  /-- packed pixel pairs Y0, Cb, Y1, Cr (20_memory.md R72) -/
  | yuyv
deriving DecidableEq, Repr

/-- The three components of a frame (00_scope.md R12). -/
inductive Comp where
  | y
  | cb
  | cr
deriving DecidableEq, Repr

/-- One constructor per row of spec/opcode_table.json (30_encoding.md R101, R105). `strict` is bit 8 of the word,
STRICT (R102); the layout of PAD_WIDTH and CROP_PAD_HEIGHT (FMT, R103) is in the constructor, as it is in the row. -/
inductive Instr where
  | unpackV210 (strict : Bool)
  | packV210 (strict : Bool)
  | packYuyv (strict : Bool)
  | unpackYuyv (strict : Bool)
  | padWidthV210 (strict : Bool)
  | padWidthPlanar (strict : Bool)
  | padWidthYuyv (strict : Bool)
  | cropPadHeightV210 (strict : Bool)
  | cropPadHeightPlanar (strict : Bool)
  | cropPadHeightYuyv (strict : Bool)
  | rgb2ycc
  | lds
  | sts
deriving DecidableEq, Repr

/-- The four fields of a command word, format C (30_encoding.md R100). -/
structure Command where
  /-- bits 7:0, the operation code -/
  op : BitVec 8
  /-- bit 8, exact-size input required -/
  strict : BitVec 1
  /-- bits 10:9, the layout of PAD_WIDTH and CROP_PAD_HEIGHT -/
  fmt : BitVec 2
  /-- bits 31:11, must be zero -/
  zero : BitVec 21
deriving DecidableEq, Repr

/-- The eighteen registers, in the order of the table of 10_state.md R21. -/
inductive Reg where
  | cmd
  | status
  | srcBase
  | srcLen
  | dstBase
  | dstLen
  | width
  | height
  | target
  | index
  | smp
  | r
  | g
  | b
  | y
  | cb
  | cr
  | outLen
deriving DecidableEq, Repr

/-- The host's actions (10_state.md R44) as they appear on its ports. A register access carries its byte offset and
its width in bits, so that the accesses R37 gives no meaning can be written down. -/
inductive HostAction where
  /-- `WR reg, v` -/
  | regWrite (offset width : Nat) (data : Word)
  /-- `RD reg` -/
  | regRead (offset width : Nat)
  /-- `MW a, n, v` -/
  | memWrite (addr n value : Nat)
  /-- `MR a, n` -/
  | memRead (addr n : Nat)
  /-- `RESET` -/
  | reset
deriving DecidableEq, Repr

end Sys2Proof
end

