-- ==== Sys2Proof/WellFormed.lean ====
section
/-! DEFINITION. Which terms are well-formed: the legality of a command's fields, written from the list of illegal
words of 30_encoding.md R106 (the decoder is written from R113, and Laws/Decode.lean proves that they agree), and the
host actions that are steps of the machine (10_state.md R37, R44; 00_scope.md R10). -/

namespace Sys2Proof

/-- Bits 31:11 are zero (30_encoding.md R104). -/
def Command.zeroClear (f : Command) : Bool := f.zero == 0

/-- OP is one of the nine assigned codes (30_encoding.md R101, R106). -/
def Command.opAssigned (f : Command) : Bool := decide (1 ≤ f.op.toNat) && decide (f.op.toNat ≤ 9)

/-- FMT = 3 is reserved (30_encoding.md R103, R106). -/
def Command.fmtAssigned (f : Command) : Bool := f.fmt != 3

/-- FMT ≠ 0 only with OP 0x05 and 0x06 (30_encoding.md R103, R106). -/
def Command.fmtApplies (f : Command) : Bool := f.fmt == 0 || f.op == 5 || f.op == 6

/-- STRICT = 1 only in the six frame commands: not with OP 0x07, 0x08, 0x09 (30_encoding.md R102, R106). -/
def Command.strictApplies (f : Command) : Bool :=
  f.strict == 0 || !(f.op == 7 || f.op == 8 || f.op == 9)

/-- A word is legal when none of the conditions of 30_encoding.md R106 makes it illegal. -/
def Command.wellFormed (f : Command) : Bool :=
  f.zeroClear && f.opAssigned && f.fmtAssigned && f.fmtApplies && f.strictApplies

/-- Every term of `Instr` is well-formed: STRICT is a Bool and stands only where R102 allows it, and the layout is in
the constructor. An ill-formed command is an ill-formed `Command`. -/
def Instr.wellFormed : Instr → Bool
  | .unpackV210 _ => true
  | .packV210 _ => true
  | .packYuyv _ => true
  | .unpackYuyv _ => true
  | .padWidthV210 _ => true
  | .padWidthPlanar _ => true
  | .padWidthYuyv _ => true
  | .cropPadHeightV210 _ => true
  | .cropPadHeightPlanar _ => true
  | .cropPadHeightYuyv _ => true
  | .rgb2ycc => true
  | .lds => true
  | .sts => true

/-- A register access that is a step of the machine: 32 bits wide, at a multiple of 4, inside 0x00 .. 0x47
(10_state.md R21, R37; 20_memory.md R60). -/
def regAccessLegal (offset width : Nat) : Bool :=
  decide (width = 32) && decide (offset % 4 = 0) && decide (offset < 0x48)

/-- A memory access that is a step of the machine: n in {1, 2, 4} and a + n ≤ 2^AW (10_state.md R44). -/
def memAccessLegal (aw addr n : Nat) : Bool :=
  (n == 1 || n == 2 || n == 4) && decide (addr + n ≤ 2 ^ aw)

/-- The host actions that are steps of the machine (10_state.md R37, R44), with the value of `MW` below 256^n
(00_scope.md R10). -/
def HostAction.wellFormed (aw : Nat) : HostAction → Bool
  | .regWrite offset width _ => regAccessLegal offset width
  | .regRead offset width => regAccessLegal offset width
  | .memWrite addr n value => memAccessLegal aw addr n && decide (value < 256 ^ n)
  | .memRead addr n => memAccessLegal aw addr n
  | .reset => true

end Sys2Proof
end

