-- ==== Sys2Proof/Decode.lean ====
section
/-! DEFINITION. The decoder of command words (30_encoding.md R113), total on every 32-bit value and rejecting by name,
and the encoder written from the tables of R100, R101, R103. -/

namespace Sys2Proof

/-- Why a word is illegal: one constructor per test of 30_encoding.md R113. All are the fault IllegalCommand. -/
inductive DecodeError where
  /-- a bit of 31:11 is set -/
  | zeroBits
  /-- OP is outside 0x01 .. 0x09 -/
  | opcode
  /-- FMT = 3 -/
  | fmtReserved
  /-- FMT ≠ 0 in a command without a layout field -/
  | fmtNotAllowed
  /-- STRICT = 1 in RGB2YCC, LDS or STS -/
  | strictNotAllowed
deriving DecidableEq, Repr

/-- The fields of a word (30_encoding.md R100). -/
def Command.ofWord (c : Word) : Command where
  op := c.extractLsb' 0 8
  strict := c.extractLsb' 8 1
  fmt := c.extractLsb' 9 2
  zero := c.extractLsb' 11 21

/-- The word of the fields: OP + 256·STRICT + 512·FMT, bits 31:11 above (30_encoding.md R100, R105). -/
def Command.toWord (f : Command) : Word := f.zero ++ f.fmt ++ f.strict ++ f.op

/-- `dispatch on op` of 30_encoding.md R113, with the layout of R103. -/
def dispatchOp (op : Nat) (strict : Bool) (fmt : Nat) : Except DecodeError Instr :=
  match op, fmt with
  | 0x01, _ => .ok (.unpackV210 strict)
  | 0x02, _ => .ok (.packV210 strict)
  | 0x03, _ => .ok (.packYuyv strict)
  | 0x04, _ => .ok (.unpackYuyv strict)
  | 0x05, 0 => .ok (.padWidthV210 strict)
  | 0x05, 1 => .ok (.padWidthPlanar strict)
  | 0x05, 2 => .ok (.padWidthYuyv strict)
  | 0x06, 0 => .ok (.cropPadHeightV210 strict)
  | 0x06, 1 => .ok (.cropPadHeightPlanar strict)
  | 0x06, 2 => .ok (.cropPadHeightYuyv strict)
  | 0x05, _ => .error .fmtReserved
  | 0x06, _ => .error .fmtReserved
  | 0x07, _ => .ok .rgb2ycc
  | 0x08, _ => .ok .lds
  | 0x09, _ => .ok .sts
  | _, _ => .error .opcode

/-- The decoder, its tests in the order of 30_encoding.md R113. -/
def decode (c : Word) : Except DecodeError Instr :=
  let f := Command.ofWord c
  let op := f.op.toNat
  if f.zero ≠ 0 then .error .zeroBits
  else if op < 0x01 ∨ op > 0x09 then .error .opcode
  else if f.fmt = 3 then .error .fmtReserved
  else if f.fmt ≠ 0 ∧ op ≠ 0x05 ∧ op ≠ 0x06 then .error .fmtNotAllowed
  else if f.strict = 1 ∧ op ≥ 0x07 then .error .strictNotAllowed
  else dispatchOp op (f.strict == 1) f.fmt.toNat

/-- The fields of an instruction's word, from the tables of 30_encoding.md R101, R102, R103. -/
def Instr.command : Instr → Command
  | .unpackV210 strict => ⟨0x01, .ofBool strict, 0, 0⟩
  | .packV210 strict => ⟨0x02, .ofBool strict, 0, 0⟩
  | .packYuyv strict => ⟨0x03, .ofBool strict, 0, 0⟩
  | .unpackYuyv strict => ⟨0x04, .ofBool strict, 0, 0⟩
  | .padWidthV210 strict => ⟨0x05, .ofBool strict, 0, 0⟩
  | .padWidthPlanar strict => ⟨0x05, .ofBool strict, 1, 0⟩
  | .padWidthYuyv strict => ⟨0x05, .ofBool strict, 2, 0⟩
  | .cropPadHeightV210 strict => ⟨0x06, .ofBool strict, 0, 0⟩
  | .cropPadHeightPlanar strict => ⟨0x06, .ofBool strict, 1, 0⟩
  | .cropPadHeightYuyv strict => ⟨0x06, .ofBool strict, 2, 0⟩
  | .rgb2ycc => ⟨0x07, 0, 0, 0⟩
  | .lds => ⟨0x08, 0, 0, 0⟩
  | .sts => ⟨0x09, 0, 0, 0⟩

/-- The word of an instruction (30_encoding.md R105). -/
def encode (i : Instr) : Word := i.command.toWord

/-- A row's pattern of spec/opcode_table.json, read by the decoder: a command is one 32-bit word (30_encoding.md R100,
R108), written to CMD as a number, so there is no byte order to undo. Bits above `nbits` are zero. A pattern of more
than 32 bits is no command. -/
def decodeTableWord (nbits w : Nat) : Option Instr :=
  if nbits ≤ 32 then
    match decode (BitVec.ofNat 32 (w % 2 ^ nbits)) with
    | .ok i => some i
    | .error _ => none
  else none

end Sys2Proof
end

