-- ==== Sys2Proof/Machine/State.lean ====
section
/-! DEFINITION. The state of the transcoder as plain data: the eighteen registers and the buffer memory
(10_state.md R20), and three fields of the model's own: the parameter AW, the host actions to come and the last reply. -/

namespace Sys2Proof.Machine

/-- The kinds of fault a command may report (60_exceptions.md R231). Raising one is the STATUS update of R230, a next
state: none of these stops the machine. -/
inductive FaultCode where
  /-- code 1: odd width, zero dimension, illegal TARGET (R232) -/
  | invalidGeometry
  /-- code 2: short source under .S, or LDS beyond SRC_LEN (R233) -/
  | shortRead
  /-- code 3: STS beyond DST_LEN (R234) -/
  | addressingError
  /-- code 4: kept for the numbering, raised by no command (R235) -/
  | degenerateRange
  /-- code 5: the word written to CMD is not legal (R236) -/
  | illegalCommand
  /-- code 6: a region used reaches beyond 2^AW (R237) -/
  | regionError
  /-- code 7: source and destination overlap (R238) -/
  | overlapError
  /-- code 8: the output is larger than DST_LEN (R239) -/
  | dstOverflow
deriving DecidableEq, Repr

/-- The implemented bits 6:0 of STATUS (10_state.md R23); `Status.toWord` gives the register the host reads. -/
structure Status where
  /-- ERR, bits 3:0: the fault code of the most recent command, 0 when it completed -/
  err : BitVec 4
  /-- WARN, bit 4: the most recent command filled a short source -/
  warn : Bool
  /-- WARNS, bit 5, sticky: some command since reset has set WARN -/
  warns : Bool
  /-- FAULTED, bit 6, sticky: some command since reset has faulted -/
  faulted : Bool
deriving DecidableEq, Repr

/-- The buffer memory (10_state.md R40) as (address, byte) pairs; the canonical form is `Memory.wf`, and what an
unlisted address reads as is `Memory.default`, both in Machine/Ops.lean. -/
abbrev Memory := List Host.Cell

/-- Where the machine stops with a fault: nowhere. A fault of the spec is a STATUS update and the engine goes on
(60_exceptions.md R230), no behaviour is `stuck` (93_implementation_defined.md), and a host access that is no step of the
machine is refused (10_state.md R37, R44; log 5). No constructor, so safe. -/
inductive Fault where
deriving DecidableEq, Repr

/-- What has no meaning. No command is refused; only host accesses that 10_state.md R37 and R44 give no meaning. -/
inductive Refusal where
  /-- Raised by exec for an instruction without a meaning; no arm raises it in this model. Safe: the machine stops. -/
  | notModelled (mnemonic : String)
  /-- Raised by the step for a register access at an offset outside the table of 10_state.md R21 (R37). Safe. -/
  | unmappedRegister (offset : Nat)
  /-- Raised by the step for a register access at an offset that is not a multiple of 4 (10_state.md R37). Safe. -/
  | misalignedRegister (offset : Nat)
  /-- Raised by the step for a register access of a width other than 32 bits (10_state.md R37). Safe. -/
  | registerWidth (width : Nat)
  /-- Raised by the step for `MW` or `MR` with n outside {1, 2, 4} (10_state.md R44). Safe. -/
  | memoryWidth (n : Nat)
  /-- Raised by the step for `MW` with a value of 256^n or more (00_scope.md R10). Safe. -/
  | memoryValue (n value : Nat)
  /-- Raised by the step for `MW` or `MR` with a + n > 2^AW: the bytes do not exist (10_state.md R44,
  93_implementation_defined.md U18). Safe. -/
  | addressOutsideMemory (addr n : Nat)
deriving DecidableEq, Repr

/-- The machine. The fields down to `mem` are the spec's whole architectural state (10_state.md R20, R21); the last
three are the model's own (INVENTORY.md, logs 1, 2, 4). -/
structure State where
  cmd : Word
  status : Status
  srcBase : Word
  srcLen : Word
  dstBase : Word
  dstLen : Word
  width : Word
  height : Word
  target : Word
  index : Word
  smp : Sample
  r : Sample
  g : Sample
  b : Sample
  y : Sample
  cb : Sample
  cr : Sample
  outLen : Word
  mem : Memory
  /-- the parameter AW: memory holds the addresses 0 .. 2^AW − 1 (00_scope.md R5); no step writes it -/
  aw : Nat
  /-- the host actions to come, oldest first: the machine's input (10_state.md R38, R44) -/
  pending : List HostAction
  /-- the value the last host action returned, if it was `RD` or `MR` (10_state.md R44) -/
  reply : Option Word
deriving DecidableEq, Repr

/-- Every register of 10_state.md R21 at its reset value, 0 (R42); memory, AW and the host's list as given. -/
def State.cleared (m : Memory) (aw : Nat) (pending : List HostAction) : State where
  cmd := 0
  status := ⟨0, false, false, false⟩
  srcBase := 0
  srcLen := 0
  dstBase := 0
  dstLen := 0
  width := 0
  height := 0
  target := 0
  index := 0
  smp := 0
  r := 0
  g := 0
  b := 0
  y := 0
  cb := 0
  cr := 0
  outLen := 0
  mem := m
  aw := aw
  pending := pending
  reply := none

/-- Power-on with memory m, "an arbitrary argument" (10_state.md R43), and address width aw (00_scope.md R5):
a RESET applied to a machine that holds m (70_reset_and_hazards.md R260). -/
def State.powerOn (m : Memory) (aw : Nat) : State := State.cleared m aw []

/-- The machine right after reset: every register 0 (10_state.md R42), AW at its default, nothing listed in memory
(DESIGN CHOICE, log 3), no host action to come (log 1). -/
def State.reset : State := State.powerOn [] Config.defaultAW

end Sys2Proof.Machine
end

