-- ==== Sys2Proof/Machine/Flags.lean ====
section
/-! DEFINITION. STATUS: the fault codes, its two updates and the word the host reads (10_state.md R23,
60_exceptions.md R230, R231). -/

namespace Sys2Proof.Machine

/-- The value of STATUS.ERR for a fault (60_exceptions.md R231). -/
def FaultCode.code : FaultCode → BitVec 4
  | .invalidGeometry => 1
  | .shortRead => 2
  | .addressingError => 3
  | .degenerateRange => 4
  | .illegalCommand => 5
  | .regionError => 6
  | .overlapError => 7
  | .dstOverflow => 8

/-- STATUS on completion with short-source flag w: `ERR <- 0; WARN <- w; WARNS <- WARNS or w` (10_state.md R23). -/
def Status.completed (st : Status) (w : Bool) : Status :=
  { st with err := 0, warn := w, warns := st.warns || w }

/-- STATUS on a fault with code k: `ERR <- k; WARN <- 0; FAULTED <- 1` (10_state.md R23, 60_exceptions.md R230). -/
def Status.faultedWith (st : Status) (k : FaultCode) : Status :=
  { st with err := k.code, warn := false, faulted := true }

/-- STATUS as the host reads it: ERR in 3:0, WARN in 4, WARNS in 5, FAULTED in 6, zero above (10_state.md R23). -/
def Status.toWord (st : Status) : Word :=
  (0 : BitVec 25) ++ BitVec.ofBool st.faulted ++ BitVec.ofBool st.warns ++ BitVec.ofBool st.warn ++ st.err

end Sys2Proof.Machine
end

