-- ==== Sys2Proof/Machine/Ops.lean ====
section
/-! DEFINITION. The shared operations: buffer memory, regions, raising a fault and completing a command. -/

namespace Sys2Proof.Machine

/-- What an unlisted address reads as. The spec leaves memory at power-on unspecified (10_state.md R43): DESIGN
CHOICE, log 3. -/
def Memory.default : Byte := 0

/-- The canonical form: addresses strictly rising, no entry equal to what an unlisted address reads as. -/
abbrev Memory.wf (m : Memory) : Prop :=
  m.Pairwise (fun c d => c.1 < d.1) ∧ ∀ c ∈ m, c.2 ≠ Memory.default

/-- Every listed address exists: it is below 2^AW (10_state.md R40). -/
abbrev Memory.inside (m : Memory) (aw : Nat) : Prop := ∀ c ∈ m, c.1 < 2 ^ aw

/-- `MEM[a]` (00_scope.md R10). -/
def Memory.read : Memory → Nat → Byte
  | [], _ => Memory.default
  | (k, b) :: m, a => if k = a then b else Memory.read m a

/-- The entries for the bytes `bs` at base, base + 1, …, in canonical form. -/
def blockCells : Nat → List Byte → Memory
  | _, [] => []
  | base, b :: bs =>
    if b = Memory.default then blockCells (base + 1) bs else (base, b) :: blockCells (base + 1) bs

/-- Memory with the bytes `bs` stored from base up: the only operation that writes memory. -/
def Memory.writeBlock (m : Memory) (base : Nat) (bs : List Byte) : Memory :=
  m.filter (fun c => c.1 < base) ++ blockCells base bs ++ m.filter (fun c => base + bs.length ≤ c.1)

/-- The n low bytes of v, least significant first: `(v div 256^k) mod 256` for k < n (00_scope.md R10,
20_memory.md R61). -/
def leBytes : Nat → Nat → List Byte
  | 0, _ => []
  | n + 1, v => BitVec.ofNat 8 v :: leBytes n (v / 256)

/-- `MemRead(a, n)`: Σ MEM[a + k] · 256^k (00_scope.md R10). -/
def Memory.readLE (m : Memory) (a : Nat) : Nat → Nat
  | 0 => 0
  | n + 1 => (Memory.read m a).toNat + 256 * Memory.readLE m (a + 1) n

/-- `MemWrite(a, n, v)` (00_scope.md R10). -/
def Memory.writeLE (m : Memory) (a n v : Nat) : Memory := m.writeBlock a (leBytes n v)

/-- A region is well formed when BASE + LEN ≤ 2^AW, in unbounded naturals (20_memory.md R67). -/
def regionWellFormed (aw : Nat) (base len : Word) : Bool := decide (base.toNat + len.toNat ≤ 2 ^ aw)

/-- Two regions overlap (20_memory.md R68). -/
def regionsOverlap (srcBase srcLen dstBase dstLen : Word) : Bool :=
  decide (srcLen.toNat ≠ 0) && decide (dstLen.toNat ≠ 0) &&
  decide (srcBase.toNat < dstBase.toNat + dstLen.toNat) &&
  decide (dstBase.toNat < srcBase.toNat + srcLen.toNat)

/-- Taking an exception: `raise Fault(k)` changes STATUS and nothing else; no state is saved, no control is
transferred, and the engine goes on (60_exceptions.md R230, R242). There is no return from it (R243). -/
def State.raiseFault (s : State) (k : FaultCode) : State := { s with status := s.status.faultedWith k }

/-- `complete with w`: the STATUS update of a command that finished (10_state.md R23). -/
def State.complete (s : State) (w : Bool) : State := { s with status := s.status.completed w }

/-- The result of a command whose checks give `fault` and whose commit part is `commit`: the checks precede the
commit, and a fault leaves no part of it (00_scope.md R11, 60_exceptions.md R230). -/
def State.checked (s : State) (fault : Option FaultCode) (commit : State → State) : State :=
  match fault with
  | some k => s.raiseFault k
  | none => commit s

end Sys2Proof.Machine
end

