-- ==== Sys2Proof/Machine/Colorimetry.lean ====
section
/-! DEFINITION. RGB2YCC in the integer form of 43_colorimetry.md R216. `/` on Int is floor division here: every
divisor is a positive numeral (00_scope.md R8). -/

namespace Sys2Proof.Machine

/-- `clamp(v, lo, hi) = max(lo, min(hi, v))` (00_scope.md R8). -/
def clamp (v lo hi : Int) : Int := max lo (min hi v)

/-- `Ny` of 43_colorimetry.md R216, from the three samples. -/
def lumaSum (r g b : Int) : Int := 299 * (r - 64) + 587 * (g - 64) + 114 * (b - 64)

/-- `Mb` of 43_colorimetry.md R216. -/
def cbSum (r g b : Int) : Int := -168736 * (r - 64) - 331264 * (g - 64) + 500000 * (b - 64)

/-- `Mr` of 43_colorimetry.md R216. -/
def crSum (r g b : Int) : Int := 500000 * (r - 64) - 418688 * (g - 64) - 81312 * (b - 64)

/-- `y` of 43_colorimetry.md R216. -/
def yccLuma (r g b : Int) : Int := clamp (64 + (lumaSum r g b + 500) / 1000) 64 940

/-- A chroma result from its sum M: `512 + (448·M + 219000000) div 438000000`, clamped (43_colorimetry.md R216). -/
def yccChroma (m : Int) : Int := clamp (512 + (448 * m + 219000000) / 438000000) 64 960

/-- `Ycc(R, G, B)` (43_colorimetry.md R216): (y, cb, cr). -/
def ycc (r g b : Sample) : Sample × Sample × Sample :=
  (BitVec.ofInt 10 (yccLuma r.toNat g.toNat b.toNat),
   BitVec.ofInt 10 (yccChroma (cbSum r.toNat g.toNat b.toNat)),
   BitVec.ofInt 10 (yccChroma (crSum r.toNat g.toNat b.toNat)))

/-- RGB2YCC (43_colorimetry.md R210): it never faults. -/
def execRgb2ycc (s : State) : Host.Outcome State Fault Refusal :=
  let res := ycc s.r s.g s.b
  .next ({ s with y := res.1, cb := res.2.1, cr := res.2.2 }.complete false)

end Sys2Proof.Machine
end

