-- ==== Sys2Proof/Machine/Operands.lean ====
section
/-! DEFINITION. The operand forms: samples in containers and v210 words, the three frame layouts, reading a frame from
a possibly short source (Decode) and its bytes in a layout (Encode). 20_memory.md R62, R63, R70 to R79. -/

namespace Sys2Proof.Machine

/-- A logical frame: three total functions of line and position (00_scope.md R12). -/
abbrev Frame := Comp → Nat → Nat → Sample

/-- The neutral pair: Y = 64, Cb = Cr = 512, studio black (00_scope.md R4, 20_memory.md R77). -/
def neutral : Comp → Sample
  | .y => 64
  | .cb => 512
  | .cr => 512

/-- Positions of a component in a line of w pixels: chroma at half resolution (00_scope.md R12). -/
def compWidth (c : Comp) (w : Nat) : Nat :=
  match c with
  | .y => w
  | .cb => w / 2
  | .cr => w / 2

/-- Reading a container keeps bits 9:0 (20_memory.md R62). -/
def containerSample (c : Nat) : Sample := BitVec.ofNat 10 c

/-- `field(d, f)`: bits 10f+9 : 10f of a v210 word (20_memory.md R63). -/
def v210Field (d f : Nat) : Sample := BitVec.ofNat 10 (d / 1024 ^ f)

/-- The v210 word of three samples, bits 31:30 zero (20_memory.md R63). -/
def v210Word (f0 f1 f2 : Sample) : Nat := f0.toNat + 1024 * f1.toNat + 1048576 * f2.toNat

/-- `ceil_div` (00_scope.md R8). -/
def ceilDiv (a b : Nat) : Nat := (a + b - 1) / b

/-- Bytes of a v210 line: `ceil_div(w, 48) · 128` (20_memory.md R73). -/
def lineBytes (w : Nat) : Nat := ceilDiv w 48 * 128

/-- `Bytes(fmt, w, h)` (20_memory.md R70). -/
def frameBytes (fmt : Layout) (w h : Nat) : Nat :=
  match fmt with
  | .v210 => lineBytes w * h
  | .planar => 4 * w * h
  | .yuyv => 4 * w * h

/-- Offset of a component's container in the planar layout (20_memory.md R71). -/
def offPlanar (c : Comp) (w h r x : Nat) : Nat :=
  match c with
  | .y => 2 * (r * w + x)
  | .cb => 2 * w * h + 2 * (r * (w / 2) + x)
  | .cr => 3 * w * h + 2 * (r * (w / 2) + x)

/-- Offset of pair j of line r in the YUYV layout (20_memory.md R72). -/
def offPair (w r j : Nat) : Nat := 8 * (r * (w / 2) + j)

/-- Offset of a component's container in the YUYV layout: Y0, Cb, Y1, Cr at +0, +2, +4, +6 of its pair
(20_memory.md R72). -/
def offYuyv (c : Comp) (w r x : Nat) : Nat :=
  match c with
  | .y => offPair w r (x / 2) + 4 * (x % 2)
  | .cb => offPair w r x + 2
  | .cr => offPair w r x + 6

/-- Offset of word k of group g of line r in the v210 layout (20_memory.md R73). -/
def offV210 (w r g k : Nat) : Nat := r * lineBytes w + 16 * g + 4 * k

/-- Samples of a component in a v210 group: 6 Y, 3 Cb, 3 Cr (20_memory.md R74). -/
def perGroup : Comp → Nat
  | .y => 6
  | .cb => 3
  | .cr => 3

/-- The table of 20_memory.md R74, read by slot: slot (k, f) holds the component's i-th sample of the group. -/
def slotSample : Nat → Nat → Comp × Nat
  | 0, 0 => (.cb, 0)
  | 0, 1 => (.y, 0)
  | 0, _ => (.cr, 0)
  | 1, 0 => (.y, 1)
  | 1, 1 => (.cb, 1)
  | 1, _ => (.y, 2)
  | 2, 0 => (.cr, 1)
  | 2, 1 => (.y, 3)
  | 2, _ => (.cb, 2)
  | _, 0 => (.y, 4)
  | _, 1 => (.cr, 2)
  | _, _ => (.y, 5)

/-- The same table read by sample: the slot (k, f) of the component's i-th sample of a group (20_memory.md R74). -/
def sampleSlot : Comp → Nat → Nat × Nat
  | .y, 0 => (0, 1)
  | .y, 1 => (1, 0)
  | .y, 2 => (1, 2)
  | .y, 3 => (2, 1)
  | .y, 4 => (3, 0)
  | .y, _ => (3, 2)
  | .cb, 0 => (0, 0)
  | .cb, 1 => (1, 1)
  | .cb, _ => (2, 2)
  | .cr, 0 => (0, 2)
  | .cr, 1 => (2, 0)
  | .cr, _ => (3, 1)

/-- `SrcC16` and `SrcW32`: n bytes at an offset of the source region, absent when any of them lies beyond SRC_LEN
(20_memory.md R77). -/
def State.source (s : State) (off n : Nat) : Option Nat :=
  if off + n ≤ s.srcLen.toNat then some (s.mem.readLE (s.srcBase.toNat + off) n) else none

/-- `sampleC16` (20_memory.md R77). -/
def State.sampleC16 (s : State) (off : Nat) (c : Comp) : Sample :=
  match s.source off 2 with
  | some v => containerSample v
  | none => neutral c

/-- `sampleW32` (20_memory.md R77). -/
def State.sampleW32 (s : State) (off f : Nat) (c : Comp) : Sample :=
  match s.source off 4 with
  | some d => v210Field d f
  | none => neutral c

/-- `Decode(fmt, w, h)` of the source region (20_memory.md R78). -/
def decodeFrame (fmt : Layout) (s : State) (w h : Nat) : Frame := fun c r x =>
  match fmt with
  | .planar => s.sampleC16 (offPlanar c w h r x) c
  | .yuyv => s.sampleC16 (offYuyv c w r x) c
  | .v210 =>
    let slot := sampleSlot c (x % perGroup c)
    s.sampleW32 (offV210 w r (x / perGroup c) slot.1) slot.2 c

/-- The short flag of a decode: SRC_LEN < Bytes(fmt, w, h) (20_memory.md R78). -/
def State.short (s : State) (fmt : Layout) (w h : Nat) : Bool := decide (s.srcLen.toNat < frameBytes fmt w h)

/-- Container number q of a planar frame, counting from its first byte: the Y plane, then Cb, then Cr, each row by row
(20_memory.md R71, R79). -/
def planarUnit (F : Frame) (w h q : Nat) : Nat :=
  let cw := w / 2
  if q < w * h then (F .y (q / w) (q % w)).toNat
  else
    let p := q - w * h
    if p < cw * h then (F .cb (p / cw) (p % cw)).toNat
    else (F .cr ((p - cw * h) / cw) ((p - cw * h) % cw)).toNat

/-- Container number q of a YUYV frame: pairs row by row, each Y0, Cb, Y1, Cr (20_memory.md R72, R79). -/
def yuyvUnit (F : Frame) (w q : Nat) : Nat :=
  let cw := w / 2
  let row := q / 4 / cw
  let j := q / 4 % cw
  match q % 4 with
  | 0 => (F .y row (2 * j)).toNat
  | 1 => (F .cb row j).toNat
  | 2 => (F .y row (2 * j + 1)).toNat
  | _ => (F .cr row j).toNat

/-- What slot (k, f) of group g of line r stores: its sample if its index is inside the frame, else 0
(20_memory.md R74, R75). -/
def slotValue (F : Frame) (w r g k f : Nat) : Sample :=
  let ci := slotSample k f
  let x := perGroup ci.1 * g + ci.2
  if x < compWidth ci.1 w then F ci.1 r x else 0

/-- Word number q of a v210 frame: lines of `lineBytes w / 4` words, groups of four (20_memory.md R73, R79). -/
def v210Unit (F : Frame) (w q : Nat) : Nat :=
  let row := q / (lineBytes w / 4)
  let m := q % (lineBytes w / 4)
  v210Word (slotValue F w row (m / 4) (m % 4) 0) (slotValue F w row (m / 4) (m % 4) 1)
    (slotValue F w row (m / 4) (m % 4) 2)

/-- Bytes per unit of a layout: 16-bit containers, 32-bit v210 words (20_memory.md R65). -/
def unitBytes : Layout → Nat
  | .v210 => 4
  | .planar => 2
  | .yuyv => 2

/-- Unit number q of a frame in a layout (20_memory.md R79). -/
def frameUnit (fmt : Layout) (F : Frame) (w h q : Nat) : Nat :=
  match fmt with
  | .v210 => v210Unit F w q
  | .planar => planarUnit F w h q
  | .yuyv => yuyvUnit F w q

/-- The bytes `Encode(fmt, F, w, h)` writes, in address order: every unit little endian, one after another
(20_memory.md R61, R79). -/
def encodeFrame (fmt : Layout) (F : Frame) (w h : Nat) : List Byte :=
  (List.range (frameBytes fmt w h / unitBytes fmt)).flatMap fun q =>
    leBytes (unitBytes fmt) (frameUnit fmt F w h q)

end Sys2Proof.Machine
end

