-- ==== Sys2Proof/Machine/FrameCommand.lean ====
section
/-! DEFINITION. The shared body of the six frame commands (41_format_conversion.md R150) and the three transforms
passed to it: Id (R151), PadW (42_geometry.md R191) and CropH (R193). -/

namespace Sys2Proof.Machine

/-- A transform (41_format_conversion.md R150): a check of the parameters, the output geometry, and the output frame,
each from (w, h) and TARGET. -/
structure Transform where
  check : Nat → Nat → Nat → Bool
  geometry : Nat → Nat → Nat → Nat × Nat
  apply : Nat → Nat → Nat → Frame → Frame

/-- `Id` (41_format_conversion.md R151). -/
def transformId : Transform where
  check _ _ _ := true
  geometry w h _ := (w, h)
  apply _ _ _ F := F

/-- Neutral pairs `PadW` adds on the left of a line: (t − w) div 4 (42_geometry.md R191). -/
def padLeftPairs (w t : Nat) : Nat := (t - w) / 4

/-- The positions a component moves right under `PadW`: 2L for luma, L for chroma (42_geometry.md R191). -/
def padShift (c : Comp) (w t : Nat) : Nat :=
  match c with
  | .y => 2 * padLeftPairs w t
  | .cb => padLeftPairs w t
  | .cr => padLeftPairs w t

/-- `PadW` (42_geometry.md R191). -/
def transformPadW : Transform where
  check w _ t := decide (t % 2 = 0) && decide (w ≤ t)
  geometry _ h t := (t, h)
  apply w _ t F := fun c r x =>
    if x < padShift c w t ∨ padShift c w t + compWidth c w ≤ x then neutral c
    else F c r (x - padShift c w t)

/-- `CropH` (42_geometry.md R193). -/
def transformCropH : Transform where
  check _ _ t := decide (1 ≤ t)
  geometry w _ t := (w, t)
  apply _ h _ F := fun c r x => if r < h then F c r x else neutral c

/-- The checks of a frame command, in the order of 41_format_conversion.md R150 (60_exceptions.md R241,
90_conflicts.md C13): the first that fails decides the code. -/
def frameFault (fin fout : Layout) (T : Transform) (strict : Bool) (s : State) : Option FaultCode :=
  let w := s.width.toNat
  let h := s.height.toNat
  let t := s.target.toNat
  let out := T.geometry w h t
  if w = 0 ∨ h = 0 ∨ w % 2 = 1 then some .invalidGeometry
  else if T.check w h t = false then some .invalidGeometry
  else if regionWellFormed s.aw s.srcBase s.srcLen = false ∨ regionWellFormed s.aw s.dstBase s.dstLen = false then
    some .regionError
  else if regionsOverlap s.srcBase s.srcLen s.dstBase s.dstLen = true then some .overlapError
  else if frameBytes fout out.1 out.2 > s.dstLen.toNat then some .dstOverflow
  else if s.short fin w h = true ∧ strict = true then some .shortRead
  else none

/-- The commit part of a frame command, which cannot fault (41_format_conversion.md R150, step 5). -/
def frameCommit (fin fout : Layout) (T : Transform) (s : State) : State :=
  let w := s.width.toNat
  let h := s.height.toNat
  let t := s.target.toNat
  let out := T.geometry w h t
  let F := T.apply w h t (decodeFrame fin s w h)
  { s with
    mem := s.mem.writeBlock s.dstBase.toNat (encodeFrame fout F out.1 out.2)
    outLen := BitVec.ofNat 32 (frameBytes fout out.1 out.2) }.complete (s.short fin w h)

/-- `FrameCommand(fin, fout, T, strict)` (41_format_conversion.md R150). -/
def frameCommand (fin fout : Layout) (T : Transform) (strict : Bool) (s : State) : State :=
  s.checked (frameFault fin fout T strict s) (frameCommit fin fout T)

end Sys2Proof.Machine
end

