-- ==== Sys2Proof/Machine/Conversion.lean ====
section
/-! DEFINITION. The four conversion commands (41_format_conversion.md R152 to R155). -/

namespace Sys2Proof.Machine

/-- UNPACK_V210: v210 to planar (41_format_conversion.md R152). -/
def execUnpackV210 (strict : Bool) (s : State) : Host.Outcome State Fault Refusal :=
  .next (frameCommand .v210 .planar transformId strict s)

/-- PACK_V210: planar to v210 (41_format_conversion.md R153). -/
def execPackV210 (strict : Bool) (s : State) : Host.Outcome State Fault Refusal :=
  .next (frameCommand .planar .v210 transformId strict s)

/-- PACK_YUYV: planar to YUYV10 (41_format_conversion.md R154). -/
def execPackYuyv (strict : Bool) (s : State) : Host.Outcome State Fault Refusal :=
  .next (frameCommand .planar .yuyv transformId strict s)

/-- UNPACK_YUYV: YUYV10 to planar, the exact inverse of PACK_YUYV (41_format_conversion.md R155,
90_conflicts.md C6). -/
def execUnpackYuyv (strict : Bool) (s : State) : Host.Outcome State Fault Refusal :=
  .next (frameCommand .yuyv .planar transformId strict s)

end Sys2Proof.Machine
end

