-- ==== Sys2Proof/Machine/Geometry.lean ====
section
/-! DEFINITION. The geometry commands, one per row: PAD_WIDTH and CROP_PAD_HEIGHT in each layout
(42_geometry.md R190, R192; 30_encoding.md R103). -/

namespace Sys2Proof.Machine

/-- PAD_WIDTH V210 (42_geometry.md R190). -/
def execPadWidthV210 (strict : Bool) (s : State) : Host.Outcome State Fault Refusal :=
  .next (frameCommand .v210 .v210 transformPadW strict s)

/-- PAD_WIDTH PLANAR (42_geometry.md R190). -/
def execPadWidthPlanar (strict : Bool) (s : State) : Host.Outcome State Fault Refusal :=
  .next (frameCommand .planar .planar transformPadW strict s)

/-- PAD_WIDTH YUYV (42_geometry.md R190). -/
def execPadWidthYuyv (strict : Bool) (s : State) : Host.Outcome State Fault Refusal :=
  .next (frameCommand .yuyv .yuyv transformPadW strict s)

/-- CROP_PAD_HEIGHT V210 (42_geometry.md R192). -/
def execCropPadHeightV210 (strict : Bool) (s : State) : Host.Outcome State Fault Refusal :=
  .next (frameCommand .v210 .v210 transformCropH strict s)

/-- CROP_PAD_HEIGHT PLANAR (42_geometry.md R192). -/
def execCropPadHeightPlanar (strict : Bool) (s : State) : Host.Outcome State Fault Refusal :=
  .next (frameCommand .planar .planar transformCropH strict s)

/-- CROP_PAD_HEIGHT YUYV (42_geometry.md R192). -/
def execCropPadHeightYuyv (strict : Bool) (s : State) : Host.Outcome State Fault Refusal :=
  .next (frameCommand .yuyv .yuyv transformCropH strict s)

end Sys2Proof.Machine
end

