-- ==== Sys2Proof/Machine/SampleAccess.lean ====
section
/-! DEFINITION. LDS and STS (40_sample_access.md R130, R131). -/

namespace Sys2Proof.Machine

/-- The checks of LDS (40_sample_access.md R130). -/
def ldsFault (s : State) : Option FaultCode :=
  if regionWellFormed s.aw s.srcBase s.srcLen = false then some .regionError
  else if 2 * s.index.toNat + 2 > s.srcLen.toNat then some .shortRead
  else none

/-- The address LDS loads from: SRC_BASE + 2·INDEX (40_sample_access.md R130). -/
def ldsAddress (s : State) : Nat := s.srcBase.toNat + 2 * s.index.toNat

/-- The commit part of LDS (40_sample_access.md R130). -/
def ldsCommit (s : State) : State :=
  { s with smp := containerSample (s.mem.readLE (ldsAddress s) 2) }.complete false

/-- LDS, load sample (40_sample_access.md R130). -/
def execLds (s : State) : Host.Outcome State Fault Refusal :=
  .next (s.checked (ldsFault s) ldsCommit)

/-- The checks of STS (40_sample_access.md R131). -/
def stsFault (s : State) : Option FaultCode :=
  if regionWellFormed s.aw s.dstBase s.dstLen = false then some .regionError
  else if 2 * s.index.toNat + 2 > s.dstLen.toNat then some .addressingError
  else none

/-- The address STS stores to: DST_BASE + 2·INDEX (40_sample_access.md R131). -/
def stsAddress (s : State) : Nat := s.dstBase.toNat + 2 * s.index.toNat

/-- The commit part of STS (40_sample_access.md R131). -/
def stsCommit (s : State) : State :=
  { s with mem := s.mem.writeLE (stsAddress s) 2 s.smp.toNat }.complete false

/-- STS, store sample (40_sample_access.md R131). -/
def execSts (s : State) : Host.Outcome State Fault Refusal :=
  .next (s.checked (stsFault s) stsCommit)

end Sys2Proof.Machine
end

