-- ==== Sys2Proof/Machine/Dispatch.lean ====
section
/-! DEFINITION. One arm per command (30_encoding.md R101, R113). -/

namespace Sys2Proof.Machine

def exec (i : Instr) (s : State) : Host.Outcome State Fault Refusal :=
  match i with
  | .unpackV210 strict => Sys2Proof.Machine.execUnpackV210 strict s
  | .packV210 strict => Sys2Proof.Machine.execPackV210 strict s
  | .packYuyv strict => Sys2Proof.Machine.execPackYuyv strict s
  | .unpackYuyv strict => Sys2Proof.Machine.execUnpackYuyv strict s
  | .padWidthV210 strict => Sys2Proof.Machine.execPadWidthV210 strict s
  | .padWidthPlanar strict => Sys2Proof.Machine.execPadWidthPlanar strict s
  | .padWidthYuyv strict => Sys2Proof.Machine.execPadWidthYuyv strict s
  | .cropPadHeightV210 strict => Sys2Proof.Machine.execCropPadHeightV210 strict s
  | .cropPadHeightPlanar strict => Sys2Proof.Machine.execCropPadHeightPlanar strict s
  | .cropPadHeightYuyv strict => Sys2Proof.Machine.execCropPadHeightYuyv strict s
  | .rgb2ycc => Sys2Proof.Machine.execRgb2ycc s
  | .lds => Sys2Proof.Machine.execLds s
  | .sts => Sys2Proof.Machine.execSts s

end Sys2Proof.Machine
end

