-- ==== Sys2Proof/Machine/HostPort.lean ====
section
/-! DEFINITION. The host port: the register map (10_state.md R21), register reads and writes (R22, R29, R36, R37) and
the host's actions (R44), among them the write to CMD that runs a command (R22, 30_encoding.md R113). -/

namespace Sys2Proof.Machine

/-- The registers in the order of the table of 10_state.md R21: row i stands at offset 4·i. -/
def registerMap : List Reg :=
  [.cmd, .status, .srcBase, .srcLen, .dstBase, .dstLen, .width, .height, .target, .index, .smp, .r, .g, .b, .y, .cb,
   .cr, .outLen]

/-- The register at row i of 10_state.md R21 (`x[i]` of 00_scope.md R9). -/
def regAt (i : Nat) : Option Reg := registerMap[i]?

/-- The byte offset of a register (10_state.md R21). -/
def regOffset (reg : Reg) : Nat := 4 * registerMap.idxOf reg

/-- A register as the host reads it: its implemented bits, zero above them (10_state.md R21, R23, R29). -/
def State.readReg (s : State) (reg : Reg) : Word :=
  match reg with
  | .cmd => s.cmd
  | .status => s.status.toWord
  | .srcBase => s.srcBase
  | .srcLen => s.srcLen
  | .dstBase => s.dstBase
  | .dstLen => s.dstLen
  | .width => s.width
  | .height => s.height
  | .target => s.target
  | .index => s.index
  | .smp => s.smp.setWidth 32
  | .r => s.r.setWidth 32
  | .g => s.g.setWidth 32
  | .b => s.b.setWidth 32
  | .y => s.y.setWidth 32
  | .cb => s.cb.setWidth 32
  | .cr => s.cr.setWidth 32
  | .outLen => s.outLen

/-- The register part of a host write (10_state.md R21): SMP, R, G, B keep `mask10(v)` (R29); STATUS, Y, CB, CR and
OUT_LEN ignore it (R36). -/
def State.writeReg (s : State) (reg : Reg) (v : Word) : State :=
  match reg with
  | .cmd => { s with cmd := v }
  | .status => s
  | .srcBase => { s with srcBase := v }
  | .srcLen => { s with srcLen := v }
  | .dstBase => { s with dstBase := v }
  | .dstLen => { s with dstLen := v }
  | .width => { s with width := v }
  | .height => { s with height := v }
  | .target => { s with target := v }
  | .index => { s with index := v }
  | .smp => { s with smp := v.setWidth 10 }
  | .r => { s with r := v.setWidth 10 }
  | .g => { s with g := v.setWidth 10 }
  | .b => { s with b := v.setWidth 10 }
  | .y => s
  | .cb => s
  | .cr => s
  | .outLen => s

/-- Decoding and executing the word c, which CMD already holds (30_encoding.md R113): an illegal word faults with
IllegalCommand (R106, 60_exceptions.md R236). -/
def runCommand (c : Word) (s : State) : Host.Outcome State Fault Refusal :=
  match decode c with
  | .ok i => exec i s
  | .error _ => .next (s.raiseFault .illegalCommand)

/-- `WR`: the register write, and for CMD then the command, within the write (10_state.md R22, R44). -/
def hostWriteReg (reg : Reg) (v : Word) (s : State) : Host.Outcome State Fault Refusal :=
  match reg with
  | .cmd => runCommand v (s.writeReg .cmd v)
  | reg => .next (s.writeReg reg v)

/-- Why a register access is no step of the machine (10_state.md R37), or the register it names. -/
def regAccess (offset width : Nat) : Except Refusal Reg :=
  if width ≠ 32 then .error (.registerWidth width)
  else if offset % 4 ≠ 0 then .error (.misalignedRegister offset)
  else
    match regAt (offset / 4) with
    | some reg => .ok reg
    | none => .error (.unmappedRegister offset)

/-- The host's memory actions (10_state.md R44): n in {1, 2, 4}, a + n ≤ 2^AW, and a value below 256^n
(00_scope.md R10) to store; anything else is refused (93_implementation_defined.md U18, logs 5, 6). `act` is what the action does where it is a step of the machine. -/
def memAccess (s : State) (addr n value : Nat) (act : State → State) : Host.Outcome State Fault Refusal :=
  if n ≠ 1 ∧ n ≠ 2 ∧ n ≠ 4 then .refused (.memoryWidth n)
  else if 256 ^ n ≤ value then .refused (.memoryValue n value)
  else if 2 ^ s.aw < addr + n then .refused (.addressOutsideMemory addr n)
  else .next (act s)

/-- One host action (10_state.md R44). -/
def hostAction (a : HostAction) (s : State) : Host.Outcome State Fault Refusal :=
  match a with
  | .regWrite offset width data =>
    match regAccess offset width with
    | .ok reg => hostWriteReg reg data s
    | .error e => .refused e
  | .regRead offset width =>
    match regAccess offset width with
    | .ok reg => .next { s with reply := some (s.readReg reg) }
    | .error e => .refused e
  | .memWrite addr n value => memAccess s addr n value fun s => { s with mem := s.mem.writeLE addr n value }
  | .memRead addr n => memAccess s addr n 0 fun s => { s with reply := some (BitVec.ofNat 32 (s.mem.readLE addr n)) }
  | .reset => .next (State.cleared s.mem s.aw s.pending)

/-- The machine's input: the oldest pending action is performed, on the state from which it and the previous reply are
gone; with no action pending the machine stands still (10_state.md R38, log 1). -/
def hostTurn (s : State) : Host.Outcome State Fault Refusal :=
  match s.pending with
  | [] => .next s
  | a :: rest => hostAction a { s with pending := rest, reply := none }

/-- The host action that issues the command of w, a pattern of nbits bits: `WR CMD, w` (30_encoding.md R111). -/
def issueWord (nbits w : Nat) : HostAction :=
  .regWrite (regOffset .cmd) 32 (BitVec.ofNat 32 (w % 2 ^ nbits))

end Sys2Proof.Machine
end

