-- ==== Sys2Proof/Machine/Step.lean ====
section
/-! DEFINITION. One step: the host's next action (10_state.md R38, R44). -/

namespace Sys2Proof.Machine

/-- One step of the machine. -/
def step (s : State) : Host.Outcome State Fault Refusal := hostTurn s

/-- s with the write of the instruction's word to CMD as the next host action: there is no program counter, and
the only source of commands is a host write to CMD (10_state.md R22, R38; log 1). -/
def State.withFetchWord (s : State) (nbits w : Nat) : State :=
  { s with pending := issueWord nbits w :: s.pending }

end Sys2Proof.Machine
end

