-- ==== Sys2Proof/Machine/Pseudo.lean ====
section
/-! DEFINITION. The host-program syntax: the assembler's spelling of a command (30_encoding.md R111) and the
pseudo-instructions, each a fixed list of host actions (R112). -/

namespace Sys2Proof.Machine

/-- `WR REG, v` (30_encoding.md R111): the pair (offset, data) on the register port. -/
def wr (reg : Reg) (v : Word) : HostAction := .regWrite (regOffset reg) 32 v

/-- `RD REG` (30_encoding.md R111). -/
def rd (reg : Reg) : HostAction := .regRead (regOffset reg) 32

/-- A command: `WR CMD, word` (30_encoding.md R111). -/
def issue (i : Instr) : HostAction := wr .cmd (encode i)

/-- `SETSRC a, n` (30_encoding.md R112). -/
def setSrc (a n : Word) : List HostAction := [wr .srcBase a, wr .srcLen n]

/-- `SETDST a, n` (30_encoding.md R112). -/
def setDst (a n : Word) : List HostAction := [wr .dstBase a, wr .dstLen n]

/-- `SETGEOM w, h` (30_encoding.md R112). -/
def setGeom (w h : Word) : List HostAction := [wr .width w, wr .height h]

/-- `SETRGB r, g, b` (30_encoding.md R112). -/
def setRgb (r g b : Word) : List HostAction := [wr .r r, wr .g g, wr .b b]

/-- `LOADS i` (30_encoding.md R112). -/
def loadS (i : Word) : List HostAction := [wr .index i, issue .lds]

/-- `STORES i, v` (30_encoding.md R112). -/
def storeS (i v : Word) : List HostAction := [wr .index i, wr .smp v, issue .sts]

/-- `V210_TO_YUYV tmp, tn` (30_encoding.md R112), with `outLen` the value the host reads from OUT_LEN after the
first command and (d, dn) the destination it restores. -/
def v210ToYuyv (tmp tn outLen d dn : Word) : List HostAction :=
  setDst tmp tn ++ [issue (.unpackV210 false)] ++ setSrc tmp outLen ++ setDst d dn ++ [issue (.packYuyv false)]

/-- `.S` after the mnemonic when STRICT = 1 (30_encoding.md R102). -/
def strictSuffix (strict : Bool) : String := if strict then ".S" else ""

/-- The assembler's spelling of a command (30_encoding.md R111). -/
def assembly : Instr → String
  | .unpackV210 strict => "UNPACK_V210" ++ strictSuffix strict
  | .packV210 strict => "PACK_V210" ++ strictSuffix strict
  | .packYuyv strict => "PACK_YUYV" ++ strictSuffix strict
  | .unpackYuyv strict => "UNPACK_YUYV" ++ strictSuffix strict
  | .padWidthV210 strict => "PAD_WIDTH" ++ strictSuffix strict ++ " V210"
  | .padWidthPlanar strict => "PAD_WIDTH" ++ strictSuffix strict ++ " PLANAR"
  | .padWidthYuyv strict => "PAD_WIDTH" ++ strictSuffix strict ++ " YUYV"
  | .cropPadHeightV210 strict => "CROP_PAD_HEIGHT" ++ strictSuffix strict ++ " V210"
  | .cropPadHeightPlanar strict => "CROP_PAD_HEIGHT" ++ strictSuffix strict ++ " PLANAR"
  | .cropPadHeightYuyv strict => "CROP_PAD_HEIGHT" ++ strictSuffix strict ++ " YUYV"
  | .rgb2ycc => "RGB2YCC"
  | .lds => "LDS"
  | .sts => "STS"

end Sys2Proof.Machine
end

