-- ==== Sys2Proof/Safety.lean ====
section
/-! DEFINITION. What counts as a safe run, and the words the claims are written in. The sizes, sources, pictures and
colour formulas below are written a second time, from the spec's text, so that a claim does not borrow the model's own
reading of a rule. -/

namespace Sys2Proof.Machine

/-! ## The invariant and safe runs -/

/-- The STATUS values a machine can hold (10_state.md R23; 60_exceptions.md R231, R235): ERR is 0 or an assigned code
other than 4; after a fault WARN is clear and FAULTED set; WARN implies WARNS. -/
abbrev Status.legal (st : Status) : Prop :=
  st.err.toNat ≤ 8 ∧ st.err ≠ 4 ∧ (st.err ≠ 0 → st.warn = false ∧ st.faulted = true) ∧
  (st.warn = true → st.warns = true)

/-- The result registers hold 0, as reset leaves them, or a result in the ranges of 10_state.md R30. -/
abbrev State.resultsLegal (s : State) : Prop :=
  (s.y = 0 ∧ s.cb = 0 ∧ s.cr = 0) ∨
  ((64 ≤ s.y.toNat ∧ s.y.toNat ≤ 940) ∧ (64 ≤ s.cb.toNat ∧ s.cb.toNat ≤ 960) ∧ (64 ≤ s.cr.toNat ∧ s.cr.toNat ≤ 960))

/-- What every step keeps: memory in canonical form and inside the 2^AW bytes there are (10_state.md R40), AW a legal
width (00_scope.md R5), a legal STATUS and legal result registers. -/
structure State.Inv (s : State) : Prop where
  memWf : s.mem.wf
  memInside : s.mem.inside s.aw
  aw : Config.legalAW s.aw
  status : s.status.legal
  results : s.resultsLegal

/-- Every host action to come is a step of the machine (10_state.md R37, R44). -/
abbrev State.Safe (s : State) : Prop := ∀ a ∈ s.pending, a.wellFormed s.aw = true

/-! ## Sizes and conditions of a frame command -/

/-- `Bytes(fmt, w, h)` as 20_memory.md R70 writes it. -/
def bytesOf (fmt : Layout) (w h : Nat) : Nat :=
  match fmt with
  | .v210 => (w + 48 - 1) / 48 * 128 * h
  | .planar => 4 * w * h
  | .yuyv => 4 * w * h

/-- What 41_format_conversion.md R150 asks of a frame command: need_in, need_out, whether TARGET is legal, STRICT. -/
structure FrameSpec where
  needIn : Nat
  needOut : Nat
  targetLegal : Prop
  strict : Bool

/-- PAD_WIDTH in a layout (42_geometry.md R190, R191). -/
def padSpec (fmt : Layout) (strict : Bool) (s : State) : FrameSpec :=
  ⟨bytesOf fmt s.width.toNat s.height.toNat, bytesOf fmt s.target.toNat s.height.toNat,
   s.target.toNat % 2 = 0 ∧ s.width.toNat ≤ s.target.toNat, strict⟩

/-- CROP_PAD_HEIGHT in a layout (42_geometry.md R192, R193). -/
def cropSpec (fmt : Layout) (strict : Bool) (s : State) : FrameSpec :=
  ⟨bytesOf fmt s.width.toNat s.height.toNat, bytesOf fmt s.width.toNat s.target.toNat, 1 ≤ s.target.toNat, strict⟩

/-- A conversion (41_format_conversion.md R151 to R155). -/
def convertSpec (fin fout : Layout) (strict : Bool) (s : State) : FrameSpec :=
  ⟨bytesOf fin s.width.toNat s.height.toNat, bytesOf fout s.width.toNat s.height.toNat, True, strict⟩

/-- The ten frame commands; none for RGB2YCC, LDS and STS. -/
def frameSpec (i : Instr) (s : State) : Option FrameSpec :=
  match i with
  | .unpackV210 k => some (convertSpec .v210 .planar k s)
  | .packV210 k => some (convertSpec .planar .v210 k s)
  | .packYuyv k => some (convertSpec .planar .yuyv k s)
  | .unpackYuyv k => some (convertSpec .yuyv .planar k s)
  | .padWidthV210 k => some (padSpec .v210 k s)
  | .padWidthPlanar k => some (padSpec .planar k s)
  | .padWidthYuyv k => some (padSpec .yuyv k s)
  | .cropPadHeightV210 k => some (cropSpec .v210 k s)
  | .cropPadHeightPlanar k => some (cropSpec .planar k s)
  | .cropPadHeightYuyv k => some (cropSpec .yuyv k s)
  | .rgb2ycc => none
  | .lds => none
  | .sts => none

/-- WIDTH, HEIGHT and TARGET are legal (60_exceptions.md R232). -/
abbrev GeometryOk (s : State) (f : FrameSpec) : Prop :=
  s.width.toNat ≠ 0 ∧ s.height.toNat ≠ 0 ∧ s.width.toNat % 2 = 0 ∧ f.targetLegal

/-- The source region is well formed (20_memory.md R67). -/
abbrev SourceInside (s : State) : Prop := s.srcBase.toNat + s.srcLen.toNat ≤ 2 ^ s.aw

/-- The destination region is well formed (20_memory.md R67). -/
abbrev DestInside (s : State) : Prop := s.dstBase.toNat + s.dstLen.toNat ≤ 2 ^ s.aw

/-- The regions do not overlap (20_memory.md R68). -/
abbrev RegionsDisjoint (s : State) : Prop :=
  s.srcLen.toNat = 0 ∨ s.dstLen.toNat = 0 ∨ s.dstBase.toNat + s.dstLen.toNat ≤ s.srcBase.toNat ∨
  s.srcBase.toNat + s.srcLen.toNat ≤ s.dstBase.toNat

/-- The conditions under which a frame command completes (41_format_conversion.md R150). -/
structure FrameReady (s : State) (f : FrameSpec) : Prop where
  geometry : GeometryOk s f
  source : SourceInside s
  dest : DestInside s
  disjoint : RegionsDisjoint s
  fits : f.needOut ≤ s.dstLen.toNat
  long : f.strict = true → f.needIn ≤ s.srcLen.toNat

/-- What a completed frame command does to the machine but for the bytes it stores: OUT_LEN and STATUS change, every
other register keeps its value (41_format_conversion.md R150, R156), and every byte outside the need_out bytes from
DST_BASE reads as before. -/
structure FrameDone (s t : State) (f : FrameSpec) : Prop where
  registers : t =
    { s with
      mem := t.mem
      outLen := BitVec.ofNat 32 f.needOut
      status :=
        { err := 0
          warn := decide (s.srcLen.toNat < f.needIn)
          warns := s.status.warns || decide (s.srcLen.toNat < f.needIn)
          faulted := s.status.faulted } }
  outside : ∀ a, a < s.dstBase.toNat ∨ s.dstBase.toNat + f.needOut ≤ a → t.mem.read a = s.mem.read a

/-- s after the fault with code k (60_exceptions.md R230, R231). -/
def faulted (s : State) (k : BitVec 4) : State :=
  { s with status := { err := k, warn := false, warns := s.status.warns, faulted := true } }

/-- s after a completed command without a warning (10_state.md R23). -/
def done (s : State) : State :=
  { s with status := { err := 0, warn := false, warns := s.status.warns, faulted := s.status.faulted } }

/-! ## Pictures: the sample values of a frame, and where a buffer shows them -/

/-- The sample values of a logical frame (00_scope.md R12). -/
structure Picture where
  y : Nat → Nat → Nat
  cb : Nat → Nat → Nat
  cr : Nat → Nat → Nat

/-- `sampleC16` of 20_memory.md R77 with the neutral value n. -/
def srcContainer (s : State) (off n : Nat) : Nat :=
  if off + 2 ≤ s.srcLen.toNat then s.mem.readLE (s.srcBase.toNat + off) 2 % 1024 else n

/-- `sampleW32` of 20_memory.md R77: bits lo+9 : lo of the word, with the neutral value n. -/
def srcField (s : State) (off lo n : Nat) : Nat :=
  if off + 4 ≤ s.srcLen.toNat then s.mem.readLE (s.srcBase.toNat + off) 4 / 2 ^ lo % 1024 else n

/-- The source region read as a frame (20_memory.md R71 to R74, R77, R78). -/
def sourcePicture (fmt : Layout) (s : State) (w h : Nat) : Picture :=
  match fmt with
  | .planar =>
    { y := fun r x => srcContainer s (2 * (r * w + x)) 64
      cb := fun r j => srcContainer s (2 * w * h + 2 * (r * (w / 2) + j)) 512
      cr := fun r j => srcContainer s (3 * w * h + 2 * (r * (w / 2) + j)) 512 }
  | .yuyv =>
    { y := fun r x => srcContainer s (8 * (r * (w / 2) + x / 2) + (if x % 2 = 0 then 0 else 4)) 64
      cb := fun r j => srcContainer s (8 * (r * (w / 2) + j) + 2) 512
      cr := fun r j => srcContainer s (8 * (r * (w / 2) + j) + 6) 512 }
  | .v210 =>
    let lb := (w + 48 - 1) / 48 * 128
    { y := fun r x =>
        let g := r * lb + 16 * (x / 6)
        match x % 6 with
        | 0 => srcField s (g + 0) 10 64
        | 1 => srcField s (g + 4) 0 64
        | 2 => srcField s (g + 4) 20 64
        | 3 => srcField s (g + 8) 10 64
        | 4 => srcField s (g + 12) 0 64
        | _ => srcField s (g + 12) 20 64
      cb := fun r j =>
        let g := r * lb + 16 * (j / 3)
        match j % 3 with
        | 0 => srcField s (g + 0) 0 512
        | 1 => srcField s (g + 4) 10 512
        | _ => srcField s (g + 8) 20 512
      cr := fun r j =>
        let g := r * lb + 16 * (j / 3)
        match j % 3 with
        | 0 => srcField s (g + 0) 20 512
        | 1 => srcField s (g + 8) 0 512
        | _ => srcField s (g + 12) 10 512 }

/-- The all neutral frame (20_memory.md R77, 41_format_conversion.md R156). -/
def neutralPicture : Picture := ⟨fun _ _ => 64, fun _ _ => 512, fun _ _ => 512⟩

/-- `PadW.apply` (42_geometry.md R191). -/
def padPicture (w t : Nat) (P : Picture) : Picture :=
  let l := (t - w) / 4
  { y := fun r x => if x < 2 * l ∨ x ≥ 2 * l + w then 64 else P.y r (x - 2 * l)
    cb := fun r j => if j < l ∨ j ≥ l + w / 2 then 512 else P.cb r (j - l)
    cr := fun r j => if j < l ∨ j ≥ l + w / 2 then 512 else P.cr r (j - l) }

/-- `CropH.apply` (42_geometry.md R193). -/
def cropPicture (h : Nat) (P : Picture) : Picture :=
  { y := fun r x => if r < h then P.y r x else 64
    cb := fun r j => if r < h then P.cb r j else 512
    cr := fun r j => if r < h then P.cr r j else 512 }

/-- A slot of a v210 word: the sample when its index i is below n, else 0 (20_memory.md R75). -/
def slotOr0 (n i : Nat) (f : Nat → Nat) : Nat := if i < n then f i else 0

/-- The buffer at base holds the picture P, w × h, in a layout (20_memory.md R71 to R75, R79): every byte of
`Bytes(fmt, w, h)` is accounted for. -/
def Shows (fmt : Layout) (m : Memory) (base w h : Nat) (P : Picture) : Prop :=
  match fmt with
  | .planar => ∀ r, r < h →
      (∀ x, x < w → m.readLE (base + 2 * (r * w + x)) 2 = P.y r x) ∧
      (∀ j, j < w / 2 → m.readLE (base + 2 * w * h + 2 * (r * (w / 2) + j)) 2 = P.cb r j ∧
        m.readLE (base + 3 * w * h + 2 * (r * (w / 2) + j)) 2 = P.cr r j)
  | .yuyv => ∀ r, r < h → ∀ j, j < w / 2 →
      let p := base + 8 * (r * (w / 2) + j)
      m.readLE p 2 = P.y r (2 * j) ∧ m.readLE (p + 2) 2 = P.cb r j ∧ m.readLE (p + 4) 2 = P.y r (2 * j + 1) ∧
      m.readLE (p + 6) 2 = P.cr r j
  | .v210 => ∀ r, r < h → ∀ g, g < 8 * ((w + 48 - 1) / 48) →
      let p := base + r * ((w + 48 - 1) / 48 * 128) + 16 * g
      let y := fun i => slotOr0 w (6 * g + i) (P.y r)
      let cb := fun i => slotOr0 (w / 2) (3 * g + i) (P.cb r)
      let cr := fun i => slotOr0 (w / 2) (3 * g + i) (P.cr r)
      m.readLE p 4 = cb 0 + 2 ^ 10 * y 0 + 2 ^ 20 * cr 0 ∧
      m.readLE (p + 4) 4 = y 1 + 2 ^ 10 * cb 1 + 2 ^ 20 * y 2 ∧
      m.readLE (p + 8) 4 = cr 1 + 2 ^ 10 * y 3 + 2 ^ 20 * cb 2 ∧
      m.readLE (p + 12) 4 = y 4 + 2 ^ 10 * cr 2 + 2 ^ 20 * y 5

/-! ## Steps and chains of commands -/

/-- The state the oldest host action is performed on: the action is gone from the list, and so is the reply of the one
before (log 1, log 4). -/
def State.taken (s : State) (rest : List HostAction) : State := { s with pending := rest, reply := none }

/-- The commands that read TARGET (10_state.md R27, 30_encoding.md R107). -/
def readsTarget : Instr → Bool
  | .unpackV210 _ => false
  | .packV210 _ => false
  | .packYuyv _ => false
  | .unpackYuyv _ => false
  | .padWidthV210 _ => true
  | .padWidthPlanar _ => true
  | .padWidthYuyv _ => true
  | .cropPadHeightV210 _ => true
  | .cropPadHeightPlanar _ => true
  | .cropPadHeightYuyv _ => true
  | .rgb2ycc => false
  | .lds => false
  | .sts => false

/-- Two states with the same operands of a frame command that reads needIn source bytes (30_encoding.md R107,
41_format_conversion.md R156): the same AW, region and geometry registers, and the same source bytes among the first
needIn. Everything else may differ. -/
structure SameFrameOperands (s u : State) (needIn : Nat) : Prop where
  aw : s.aw = u.aw
  srcBase : s.srcBase = u.srcBase
  srcLen : s.srcLen = u.srcLen
  dstBase : s.dstBase = u.dstBase
  dstLen : s.dstLen = u.dstLen
  width : s.width = u.width
  height : s.height = u.height
  bytes : ∀ k, k < needIn → k < s.srcLen.toNat → s.mem.read (s.srcBase.toNat + k) = u.mem.read (u.srcBase.toNat + k)

/-- The host's register writes between two commands of a chain: the buffer the first command produced becomes the
source (70_reset_and_hazards.md R266: SRC_LEN set to OUT_LEN), with a new destination and geometry. -/
def State.chain (s : State) (dst dstLen width height target : Word) : State :=
  { s with
    srcBase := s.dstBase
    srcLen := s.outLen
    dstBase := dst
    dstLen := dstLen
    width := width
    height := height
    target := target }

/-- The command runs from s to t and completes (STATUS.ERR = 0). -/
def Completes (i : Instr) (s t : State) : Prop := exec i s = .next t ∧ t.status.err = 0

/-! ## Command words -/

/-- The 23 legal words of 30_encoding.md R105. -/
def legalWords : List Word :=
  [0x001, 0x101, 0x002, 0x102, 0x003, 0x103, 0x004, 0x104, 0x005, 0x105, 0x205, 0x305, 0x405, 0x505, 0x006, 0x106,
   0x206, 0x306, 0x406, 0x506, 0x007, 0x008, 0x009]

/-- The mask and match of an instruction's row in the table of 30_encoding.md R105. -/
def rowPattern : Instr → Word × Word
  | .unpackV210 _ => (0xFFFFFEFF, 0x00000001)
  | .packV210 _ => (0xFFFFFEFF, 0x00000002)
  | .packYuyv _ => (0xFFFFFEFF, 0x00000003)
  | .unpackYuyv _ => (0xFFFFFEFF, 0x00000004)
  | .padWidthV210 _ => (0xFFFFFEFF, 0x00000005)
  | .padWidthPlanar _ => (0xFFFFFEFF, 0x00000205)
  | .padWidthYuyv _ => (0xFFFFFEFF, 0x00000405)
  | .cropPadHeightV210 _ => (0xFFFFFEFF, 0x00000006)
  | .cropPadHeightPlanar _ => (0xFFFFFEFF, 0x00000206)
  | .cropPadHeightYuyv _ => (0xFFFFFEFF, 0x00000406)
  | .rgb2ycc => (0xFFFFFFFF, 0x00000007)
  | .lds => (0xFFFFFFFF, 0x00000008)
  | .sts => (0xFFFFFFFF, 0x00000009)

/-- The conditions that make a word illegal, as 30_encoding.md R106 lists them, on the bits of R100. -/
def illegalWord (c : Word) : Prop :=
  let op := c.toNat % 256
  let strict := c.toNat / 256 % 2
  let fmt := c.toNat / 512 % 4
  (op < 0x01 ∨ 0x09 < op) ∨ fmt = 3 ∨ (fmt ≠ 0 ∧ op ≠ 0x05 ∧ op ≠ 0x06) ∨
  (strict = 1 ∧ (op = 0x07 ∨ op = 0x08 ∨ op = 0x09)) ∨ 2048 ≤ c.toNat

/-! ## The colour transform in rational arithmetic -/

/-- Step 1 (43_colorimetry.md R211): normalise a channel. -/
def normalise (v : Nat) : ℚ := ((v : ℚ) - 64) / (940 - 64)

/-- `Yn` of step 2 (43_colorimetry.md R212). -/
def lumaRational (r g b : Nat) : ℚ :=
  299 / 1000 * normalise r + 587 / 1000 * normalise g + 114 / 1000 * normalise b

/-- `Cbn` of step 2 (43_colorimetry.md R212). -/
def cbRational (r g b : Nat) : ℚ :=
  -(168736 / 1000000) * normalise r - 331264 / 1000000 * normalise g + 1 / 2 * normalise b

/-- `Crn` of step 2 (43_colorimetry.md R212). -/
def crRational (r g b : Nat) : ℚ :=
  1 / 2 * normalise r - 418688 / 1000000 * normalise g - 81312 / 1000000 * normalise b

/-- Steps 3 and 4 (43_colorimetry.md R213 to R215): offset and scale, `floor(x + 1/2)`, clamp. -/
def requantise (offset scale : ℚ) (hi : Int) (x : ℚ) : Int :=
  max 64 (min hi ⌊offset + x * scale + 1 / 2⌋)

end Sys2Proof.Machine
end

