-- ==== Sys2Proof/Certificates/Slice0/Obligations.lean ====
section
/-! DEFINITION. The statements for the provers. Each docstring names the rule of spec/ it formalises, or says that it
rests on a choice of the model and names the log entry. -/

open Sys2Proof Sys2Proof.Machine

/-! ## Reset, the host port and the step -/

/-- 10_state.md R42: after RESET every register of R21 reads 0, and so it does in `State.reset`. -/
def Obligations.ResetLeavesEveryRegisterZero : Prop :=
  (∀ (s : State) (rest : List HostAction), s.pending = .reset :: rest →
    ∃ t, step s = .next t ∧ ∀ reg : Reg, t.readReg reg = 0) ∧
  (∀ reg : Reg, State.reset.readReg reg = 0)

/-- 70_reset_and_hazards.md section 1 (RESET clears the registers, the sticky bits among them, and leaves buffer
memory): the whole next state. That AW, the list of actions and the reply come out as they do is the model's choice
(logs 1, 2, 4). -/
def Obligations.ResetKeepsMemory : Prop :=
  ∀ (s : State) (rest : List HostAction), s.pending = .reset :: rest →
    step s = .next (State.cleared s.mem s.aw rest) ∧
    ∀ a, (State.cleared s.mem s.aw rest).mem.read a = s.mem.read a

/-- Every command straight after reset, for every memory and every AW (70_reset_and_hazards.md, "What each command does
straight after reset, with no setup", which the spec marks as derived from its rules on reset and on each command). -/
def Obligations.CommandsStraightAfterReset : Prop :=
  ∀ (m : Memory) (aw : Nat), let s := State.powerOn m aw
    (∀ i, (∃ f, frameSpec i s = some f) → exec i s = .next (faulted s 1)) ∧
    exec .lds s = .next (faulted s 2) ∧
    exec .sts s = .next (faulted s 3) ∧
    exec .rgb2ycc s = .next { done s with y := 64, cb := 512, cr := 512 }

/-- 10_state.md R22: a write of c to CMD stores c and then decodes and executes it, in the same step; a read of CMD
returns CMD; no command writes CMD, and no other host action but RESET does, so that CMD is the last value written. -/
def Obligations.WriteToCmdRunsTheDecodedCommand : Prop :=
  (∀ (s : State) (c : Word) (rest : List HostAction), s.pending = .regWrite 0x00 32 c :: rest →
    (∀ i, decode c = .ok i → step s = exec i { s.taken rest with cmd := c }) ∧
    (∀ e, decode c = .error e → step s = .next (faulted { s.taken rest with cmd := c } 5)) ∧
    (∀ t, step s = .next t → t.cmd = c)) ∧
  (∀ (s : State) (rest : List HostAction), s.pending = .regRead 0x00 32 :: rest →
    step s = .next { s.taken rest with reply := some s.cmd }) ∧
  (∀ (i : Instr) (s t : State), exec i s = .next t → t.cmd = s.cmd) ∧
  (∀ (s t : State) (a : HostAction) (rest : List HostAction), s.pending = a :: rest → step s = .next t →
    a ≠ .reset → (∀ c, a ≠ .regWrite 0x00 32 c) → t.cmd = s.cmd)

/-- A step runs the decoded instruction: with a word placed where the step takes its next command, the step is exec of
the instruction the word decodes to, on the state with CMD holding the word. That the machine's input is a list in
State is the model's choice (log 1). -/
def Obligations.StepRunsTheFetchedWord : Prop :=
  ∀ (s : State) (w : Nat) (i : Instr), decode (BitVec.ofNat 32 w) = .ok i →
    step (s.withFetchWord 32 w) = exec i { s with cmd := BitVec.ofNat 32 w, reply := none }

/-- The model's choice, log 1: with no host action to come the machine stands still. -/
def Obligations.NoPendingActionStandsStill : Prop :=
  ∀ s : State, s.pending = [] → step s = .next s

/-- 10_state.md R23: STATUS after a command that completes with short flag w, after one that faults and after an illegal
word; no other host action but RESET, which clears it, changes it; the host reads ERR in bits 3:0, WARN in 4, WARNS in
5, FAULTED in 6 and zero above. -/
def Obligations.StatusFollowsTheCommand : Prop :=
  (∀ (i : Instr) (s t : State), exec i s = .next t →
    (t.status.err = 0 →
      let w := match frameSpec i s with
        | some f => decide (s.srcLen.toNat < f.needIn)
        | none => false
      t.status = { err := 0, warn := w, warns := s.status.warns || w, faulted := s.status.faulted }) ∧
    (t.status.err ≠ 0 →
      t.status = { err := t.status.err, warn := false, warns := s.status.warns, faulted := true })) ∧
  (∀ (s t : State) (c : Word) (rest : List HostAction), s.pending = .regWrite 0x00 32 c :: rest → c ∉ legalWords →
    step s = .next t → t.status = { err := 5, warn := false, warns := s.status.warns, faulted := true }) ∧
  (∀ (s t : State) (a : HostAction) (rest : List HostAction), s.pending = a :: rest → step s = .next t →
    a ≠ .reset → (∀ c, a ≠ .regWrite 0x00 32 c) → t.status = s.status) ∧
  (∀ (s : State) (rest : List HostAction), s.pending = .reset :: rest →
    ∃ t, step s = .next t ∧ t.status = { err := 0, warn := false, warns := false, faulted := false }) ∧
  (∀ s : State, (s.readReg .status).toNat =
    s.status.err.toNat + 16 * s.status.warn.toNat + 32 * s.status.warns.toNat + 64 * s.status.faulted.toNat)

/-- 10_state.md section 2 (the register map): a read at each offset returns that register, its implemented bits with
zeros above them, and changes nothing else. -/
def Obligations.RegisterReadsFollowTheMap : Prop :=
  ∀ (s : State) (rest : List HostAction) (off v : Nat),
    (off, v) ∈
      [(0x00, s.cmd.toNat),
       (0x04, s.status.err.toNat + 16 * s.status.warn.toNat + 32 * s.status.warns.toNat + 64 * s.status.faulted.toNat),
       (0x08, s.srcBase.toNat), (0x0C, s.srcLen.toNat), (0x10, s.dstBase.toNat), (0x14, s.dstLen.toNat),
       (0x18, s.width.toNat), (0x1C, s.height.toNat), (0x20, s.target.toNat), (0x24, s.index.toNat),
       (0x28, s.smp.toNat), (0x2C, s.r.toNat), (0x30, s.g.toNat), (0x34, s.b.toNat), (0x38, s.y.toNat),
       (0x3C, s.cb.toNat), (0x40, s.cr.toNat), (0x44, s.outLen.toNat)] →
    s.pending = .regRead off 32 :: rest →
    step s = .next { s.taken rest with reply := some (BitVec.ofNat 32 v) } ∧ v < 2 ^ 32

/-- 10_state.md section 2: a write to each of the eight plain registers stores the 32-bit value there and changes
nothing else. -/
def Obligations.RegisterWritesStoreTheValue : Prop :=
  ∀ (s : State) (rest : List HostAction) (v : Word),
    (s.pending = .regWrite 0x08 32 v :: rest → step s = .next { s.taken rest with srcBase := v }) ∧
    (s.pending = .regWrite 0x0C 32 v :: rest → step s = .next { s.taken rest with srcLen := v }) ∧
    (s.pending = .regWrite 0x10 32 v :: rest → step s = .next { s.taken rest with dstBase := v }) ∧
    (s.pending = .regWrite 0x14 32 v :: rest → step s = .next { s.taken rest with dstLen := v }) ∧
    (s.pending = .regWrite 0x18 32 v :: rest → step s = .next { s.taken rest with width := v }) ∧
    (s.pending = .regWrite 0x1C 32 v :: rest → step s = .next { s.taken rest with height := v }) ∧
    (s.pending = .regWrite 0x20 32 v :: rest → step s = .next { s.taken rest with target := v }) ∧
    (s.pending = .regWrite 0x24 32 v :: rest → step s = .next { s.taken rest with index := v })

/-- 10_state.md R29: SMP, R, G and B keep the low ten bits of what is written and read back with zeros above; LDS is
the only command that writes SMP, and no command writes R, G or B. -/
def Obligations.DataRegistersKeepTenBits : Prop :=
  (∀ (s : State) (rest : List HostAction) (v : Word),
    (s.pending = .regWrite 0x28 32 v :: rest →
      step s = .next { s.taken rest with smp := BitVec.ofNat 10 (v.toNat % 1024) }) ∧
    (s.pending = .regWrite 0x2C 32 v :: rest →
      step s = .next { s.taken rest with r := BitVec.ofNat 10 (v.toNat % 1024) }) ∧
    (s.pending = .regWrite 0x30 32 v :: rest →
      step s = .next { s.taken rest with g := BitVec.ofNat 10 (v.toNat % 1024) }) ∧
    (s.pending = .regWrite 0x34 32 v :: rest →
      step s = .next { s.taken rest with b := BitVec.ofNat 10 (v.toNat % 1024) }) ∧
    (s.readReg .smp).toNat = s.smp.toNat ∧ (s.readReg .r).toNat = s.r.toNat ∧
    (s.readReg .g).toNat = s.g.toNat ∧ (s.readReg .b).toNat = s.b.toNat) ∧
  (∀ (i : Instr) (s t : State), exec i s = .next t →
    t.r = s.r ∧ t.g = s.g ∧ t.b = s.b ∧ (i ≠ .lds → t.smp = s.smp)) ∧
  (∀ s t : State, Completes .lds s t →
    t.smp.toNat = s.mem.readLE (s.srcBase.toNat + 2 * s.index.toNat) 2 % 1024)

/-- 10_state.md R36: a host write to STATUS, Y, CB, CR or OUT_LEN changes nothing and raises nothing; a host read of
any register has no side effect. -/
def Obligations.ReadOnlyRegistersIgnoreWrites : Prop :=
  (∀ (s : State) (rest : List HostAction) (v : Word) (off : Nat), off ∈ [0x04, 0x38, 0x3C, 0x40, 0x44] →
    s.pending = .regWrite off 32 v :: rest → step s = .next (s.taken rest)) ∧
  (∀ (s : State) (rest : List HostAction) (off : Nat), off % 4 = 0 → off < 0x48 →
    s.pending = .regRead off 32 :: rest → ∃ v, step s = .next { s.taken rest with reply := some v })

/-- 10_state.md R37: a register access at an offset outside the map, at an offset that is no multiple of 4 or of a
width other than 32 bits is refused, whether it reads or writes. -/
def Obligations.OffMapRegisterAccessesAreRefused : Prop :=
  ∀ (s : State) (rest : List HostAction) (off width : Nat) (v : Word),
    width ≠ 32 ∨ off % 4 ≠ 0 ∨ 0x48 ≤ off →
    s.pending = .regWrite off width v :: rest ∨ s.pending = .regRead off width :: rest →
    ∃ why, step s = .refused why

/-- 10_state.md section 5, 00_scope.md section 6, 93_implementation_defined.md U18: a memory action with n outside
{1, 2, 4}, with bytes beyond 2^AW or with a value of 256^n or more is no step of the machine: it is refused. (The bound
on the value is the model's reading of `MemWrite`, log 6.) -/
def Obligations.IllegalMemoryActionsStop : Prop :=
  ∀ (s : State) (rest : List HostAction) (a n v : Nat),
    (s.pending = .memWrite a n v :: rest → n ∉ [1, 2, 4] ∨ 2 ^ s.aw < a + n ∨ 256 ^ n ≤ v →
      ∃ why, step s = .refused why) ∧
    (s.pending = .memRead a n :: rest → n ∉ [1, 2, 4] ∨ 2 ^ s.aw < a + n → ∃ why, step s = .refused why)

/-- 10_state.md section 5 (`MW`), 00_scope.md section 6 (`MemWrite`): the n bytes at a become the bytes of v, least
significant first; every other byte and every register stays. -/
def Obligations.HostMemoryWriteStoresItsBytes : Prop :=
  ∀ (s : State) (rest : List HostAction) (a n v : Nat), n ∈ [1, 2, 4] → v < 256 ^ n → a + n ≤ 2 ^ s.aw →
    s.pending = .memWrite a n v :: rest →
    ∃ t, step s = .next t ∧ t = { s.taken rest with mem := t.mem } ∧
      (∀ k, k < n → (t.mem.read (a + k)).toNat = v / 256 ^ k % 256) ∧
      (∀ x, x < a ∨ a + n ≤ x → t.mem.read x = s.mem.read x)

/-- 10_state.md section 5 (`MR`), 00_scope.md section 6 (`MemRead`): the reply is the little-endian value of the n
bytes at a, and nothing else changes. -/
def Obligations.HostMemoryReadReturnsItsBytes : Prop :=
  ∀ (s : State) (rest : List HostAction) (a n : Nat), n ∈ [1, 2, 4] → a + n ≤ 2 ^ s.aw →
    s.pending = .memRead a n :: rest →
    ∃ v : Word, step s = .next { s.taken rest with reply := some v } ∧
      v.toNat = ((List.range n).map fun k => (s.mem.read (a + k)).toNat * 256 ^ k).sum

/-! ## Encoding -/

/-- Decode and encode agree in both directions, over every instruction and every one of the 2^32 words. -/
def Obligations.DecodeIsTheInverseOfEncode : Prop :=
  ∀ (w : Word) (i : Instr), decode w = .ok i ↔ w = encode i

/-- 30_encoding.md section 2, "The complete list of legal command words", which the spec marks as derived from its field
rules: a word is legal exactly when it equals one of the 23 values; each row's mask and match select its words; the word
is OP + 256·STRICT + 512·FMT. -/
def Obligations.LegalWordsAreTheTwentyThree : Prop :=
  legalWords.length = 23 ∧ legalWords.Nodup ∧
  (∀ w : Word, (∃ i, decode w = .ok i) ↔ w ∈ legalWords) ∧
  (∀ (w : Word) (i : Instr), decode w = .ok i → w &&& (rowPattern i).1 = (rowPattern i).2) ∧
  (∀ (w : Word) (i : Instr), w &&& (rowPattern i).1 = (rowPattern i).2 →
    ∃ j, decode w = .ok j ∧ rowPattern j = rowPattern i) ∧
  (∀ i : Instr, (encode i).toNat =
    i.command.op.toNat + 256 * i.command.strict.toNat + 512 * i.command.fmt.toNat)

/-- 60_exceptions.md R236: writing a word that is not legal stores it in CMD and faults with IllegalCommand, and nothing
else changes; a word is not legal exactly under the conditions 30_encoding.md section 2 lists. -/
def Obligations.IllegalWordsFault : Prop :=
  (∀ c : Word, illegalWord c ↔ c ∉ legalWords) ∧
  (∀ (s : State) (c : Word) (rest : List HostAction), illegalWord c → s.pending = .regWrite 0x00 32 c :: rest →
    step s = .next (faulted { s.taken rest with cmd := c } 5))

/-- Words written out from 30_encoding.md R105 decode to the instructions they stand for, and illegal words to
their errors. -/
def Obligations.SampleWordsDecode : Prop :=
  decode 0x00000001 = .ok (.unpackV210 false) ∧ decode 0x00000103 = .ok (.packYuyv true) ∧
  decode 0x00000205 = .ok (.padWidthPlanar false) ∧ decode 0x00000506 = .ok (.cropPadHeightYuyv true) ∧
  decode 0x00000007 = .ok .rgb2ycc ∧ decode 0x00000008 = .ok .lds ∧ decode 0x00000009 = .ok .sts ∧
  decode 0x00000000 = .error .opcode ∧ decode 0x00000605 = .error .fmtReserved ∧
  decode 0x00000207 = .error .fmtNotAllowed ∧ decode 0x00000108 = .error .strictNotAllowed ∧
  decode 0x80000001 = .error .zeroBits

/-! ## Sample access -/

/-- 40_sample_access.md R130: LDS, its two faults in their order and its effect: the whole next state. -/
def Obligations.LdsLoadsOneSample : Prop :=
  ∀ s : State,
    (¬ SourceInside s → exec .lds s = .next (faulted s 6)) ∧
    (SourceInside s → 2 * s.index.toNat + 2 > s.srcLen.toNat → exec .lds s = .next (faulted s 2)) ∧
    (SourceInside s → 2 * s.index.toNat + 2 ≤ s.srcLen.toNat →
      exec .lds s = .next { done s with
        smp := BitVec.ofNat 10 (s.mem.readLE (s.srcBase.toNat + 2 * s.index.toNat) 2 % 1024) })

/-- 40_sample_access.md R131: STS, its two faults in their order and its effect: the two bytes at DST_BASE + 2·INDEX
are SMP mod 256 and SMP div 256, every other byte and every register but STATUS stays. -/
def Obligations.StsStoresOneSample : Prop :=
  ∀ s : State,
    (¬ DestInside s → exec .sts s = .next (faulted s 6)) ∧
    (DestInside s → 2 * s.index.toNat + 2 > s.dstLen.toNat → exec .sts s = .next (faulted s 3)) ∧
    (DestInside s → 2 * s.index.toNat + 2 ≤ s.dstLen.toNat →
      ∃ t, exec .sts s = .next t ∧ t = { done s with mem := t.mem } ∧
        (∀ a, stsAddress s = a → a = s.dstBase.toNat + 2 * s.index.toNat ∧
          (t.mem.read a).toNat = s.smp.toNat % 256 ∧ (t.mem.read (a + 1)).toNat = s.smp.toNat / 256 ∧
          ∀ x, x < a ∨ a + 2 ≤ x → t.mem.read x = s.mem.read x))

/-- 40_sample_access.md, "Store then load", which the spec marks as derived from the rules of LDS and STS: a completed
STS followed by LDS on the same region and index completes and leaves SMP unchanged; a host MW2 of any 16-bit c
followed by LDS gives c mod 1024. -/
def Obligations.StoreThenLoadReturnsTheSample : Prop :=
  (∀ s t : State, s.srcBase = s.dstBase → s.srcLen = s.dstLen → Completes .sts s t →
    ∃ u, exec .lds t = .next u ∧ u.status.err = 0 ∧ u.smp = s.smp) ∧
  (∀ (s : State) (c : Nat) (w : Word) (rest : List HostAction), c < 65536 → SourceInside s →
    2 * s.index.toNat + 2 ≤ s.srcLen.toNat → decode w = .ok .lds →
    s.pending =
      .memWrite (s.srcBase.toNat + 2 * s.index.toNat) 2 c :: .regWrite 0x00 32 w :: rest →
    ∃ t, Host.Core.run core 2 s = .next t ∧ t.status.err = 0 ∧ t.smp.toNat = c % 1024)

/-- 30_encoding.md section 5 (`STORES i, v` then `LOADS i`): the five host actions, run from any state whose source
and destination are one region that holds container i, store v mod 1024 and load it back. -/
def Obligations.StoresThenLoadsRoundTrips : Prop :=
  ∀ (s : State) (i v : Word), s.srcBase = s.dstBase → s.srcLen = s.dstLen → DestInside s →
    2 * i.toNat + 2 ≤ s.dstLen.toNat → s.pending = storeS i v ++ loadS i →
    ∃ t, Host.Core.run core 5 s = .next t ∧ t.status.err = 0 ∧ t.smp.toNat = v.toNat % 1024 ∧
      t.mem.readLE (s.dstBase.toNat + 2 * i.toNat) 2 = v.toNat % 1024 ∧ t.pending = []

/-! ## Colour -/

/-- 43_colorimetry.md, the integer form, which the spec marks as derived from its four steps: RGB2YCC in every state:
Y, CB and CR take the values of the integer form, STATUS records completion, every other register and all of memory
stay. -/
def Obligations.Rgb2yccComputesTheIntegerForm : Prop :=
  ∀ s : State,
    let r : Int := s.r.toNat - 64
    let g : Int := s.g.toNat - 64
    let b : Int := s.b.toNat - 64
    let ny := 299 * r + 587 * g + 114 * b
    let mb := -168736 * r - 331264 * g + 500000 * b
    let mr := 500000 * r - 418688 * g - 81312 * b
    (-64000 ≤ ny ∧ ny ≤ 959000) ∧ |mb| ≤ 511500000 ∧ |mr| ≤ 511500000 ∧
    ∃ t, exec .rgb2ycc s = .next t ∧ t = { done s with y := t.y, cb := t.cb, cr := t.cr } ∧
      (t.y.toNat : Int) = max 64 (min 940 (64 + (ny + 500) / 1000)) ∧
      (t.cb.toNat : Int) = max 64 (min 960 (512 + (448 * mb + 219000000) / 438000000)) ∧
      (t.cr.toNat : Int) = max 64 (min 960 (512 + (448 * mr + 219000000) / 438000000))

/-- 43_colorimetry.md, steps 1 to 4: the result of RGB2YCC is the four steps in exact rational arithmetic, with
`floor(x + 1/2)` for `round` (the spec's "Rounding", which it marks as derived), for every one of the 2^30 inputs; the Y
row of the matrix sums to 1 and the chroma rows sum to 0. -/
def Obligations.Rgb2yccEqualsTheRationalSteps : Prop :=
  ∀ s t : State, exec .rgb2ycc s = .next t →
    (t.y.toNat : Int) = requantise 64 (940 - 64) 940 (lumaRational s.r.toNat s.g.toNat s.b.toNat) ∧
    (t.cb.toNat : Int) = requantise 512 (960 - 64) 960 (cbRational s.r.toNat s.g.toNat s.b.toNat) ∧
    (t.cr.toNat : Int) = requantise 512 (960 - 64) 960 (crRational s.r.toNat s.g.toNat s.b.toNat) ∧
    ∀ v, lumaRational v v v = normalise v ∧ cbRational v v v = 0 ∧ crRational v v v = 0

/-- 43_colorimetry.md, the document's two boundary cases, which the spec marks as derived from the integer form, in
every state that holds the inputs. -/
def Obligations.Rgb2yccBoundaryCases : Prop :=
  ∀ s : State,
    (s.r = 940 → s.g = 940 → s.b = 940 →
      exec .rgb2ycc s = .next { done s with y := 940, cb := 512, cr := 512 }) ∧
    (s.r = 64 → s.g = 64 → s.b = 64 → exec .rgb2ycc s = .next { done s with y := 64, cb := 512, cr := 512 })

/-- 43_colorimetry.md, the corner cases of RGB2YCC: every result lies in its range, and equal inputs v give
CB = CR = 512 and Y = clamp(v, 64, 940). -/
def Obligations.Rgb2yccRangesAndGrey : Prop :=
  ∀ s t : State, exec .rgb2ycc s = .next t →
    (64 ≤ t.y.toNat ∧ t.y.toNat ≤ 940) ∧ (64 ≤ t.cb.toNat ∧ t.cb.toNat ≤ 960) ∧
    (64 ≤ t.cr.toNat ∧ t.cr.toNat ≤ 960) ∧
    (s.r = s.g → s.g = s.b → t.cb = 512 ∧ t.cr = 512 ∧ t.y.toNat = max 64 (min 940 s.r.toNat))

/-- 43_colorimetry.md, exactness and ties: the scaled chroma sums are never exactly halfway between two integers, and a
luma sum that is (Ny mod 1000 = 500) rounds up: 1000·Y is then 64000 + Ny + 500 where the clamp does not act. -/
def Obligations.ChromaNeverTiesLumaTiesRoundUp : Prop :=
  ∀ s t : State, exec .rgb2ycc s = .next t →
    (448 * cbSum s.r.toNat s.g.toNat s.b.toNat + 219000000) % 438000000 ≠ 0 ∧
    (448 * crSum s.r.toNat s.g.toNat s.b.toNat + 219000000) % 438000000 ≠ 0 ∧
    (let ny := 299 * ((s.r.toNat : Int) - 64) + 587 * ((s.g.toNat : Int) - 64) + 114 * ((s.b.toNat : Int) - 64)
     ny % 1000 = 500 → 0 ≤ ny → ny < 876000 → 1000 * (t.y.toNat : Int) = 64000 + ny + 500)

/-- 10_state.md R30: Y, CB and CR are written by RGB2YCC alone (and cleared by RESET); its results lie in their
ranges; reset leaves 0, which is outside them. -/
def Obligations.ResultRegistersAreWrittenByRgb2yccOnly : Prop :=
  (∀ (i : Instr) (s t : State), i ≠ .rgb2ycc → exec i s = .next t → t.y = s.y ∧ t.cb = s.cb ∧ t.cr = s.cr) ∧
  (∀ s t : State, exec .rgb2ycc s = .next t →
    (64 ≤ t.y.toNat ∧ t.y.toNat ≤ 940) ∧ (64 ≤ t.cb.toNat ∧ t.cb.toNat ≤ 960) ∧
    (64 ≤ t.cr.toNat ∧ t.cr.toNat ≤ 960)) ∧
  (∀ (s t : State) (a : HostAction) (rest : List HostAction), s.pending = a :: rest → step s = .next t →
    a ≠ .reset → (∀ width c, a = .regWrite 0x00 width c → decode c ≠ .ok .rgb2ycc) →
    t.y = s.y ∧ t.cb = s.cb ∧ t.cr = s.cr) ∧
  (∀ (s : State) (rest : List HostAction), s.pending = .reset :: rest →
    ∃ t, step s = .next t ∧ t.y = 0 ∧ t.cb = 0 ∧ t.cr = 0) ∧
  State.reset.y = 0 ∧ State.reset.cb = 0 ∧ State.reset.cr = 0

/-! ## The frame commands: where they complete, and with what result -/

/-- 41_format_conversion.md, UNPACK_V210: under the conditions of the shared body it completes, and the destination
shows, in the planar layout, the picture the v210 source holds. -/
def Obligations.UnpackV210Completes : Prop :=
  ∀ (strict : Bool) (s : State), FrameReady s (convertSpec .v210 .planar strict s) →
    ∃ t, exec (.unpackV210 strict) s = .next t ∧ FrameDone s t (convertSpec .v210 .planar strict s) ∧
      Shows .planar t.mem s.dstBase.toNat s.width.toNat s.height.toNat
        (sourcePicture .v210 s s.width.toNat s.height.toNat)

/-- 41_format_conversion.md, PACK_V210: the destination shows the planar source in the v210 layout, with zero in bits
31:30, in slots beyond the width and in padding groups. -/
def Obligations.PackV210Completes : Prop :=
  ∀ (strict : Bool) (s : State), FrameReady s (convertSpec .planar .v210 strict s) →
    ∃ t, exec (.packV210 strict) s = .next t ∧ FrameDone s t (convertSpec .planar .v210 strict s) ∧
      Shows .v210 t.mem s.dstBase.toNat s.width.toNat s.height.toNat
        (sourcePicture .planar s s.width.toNat s.height.toNat)

/-- 41_format_conversion.md, PACK_YUYV: the destination shows the planar source in the YUYV layout. -/
def Obligations.PackYuyvCompletes : Prop :=
  ∀ (strict : Bool) (s : State), FrameReady s (convertSpec .planar .yuyv strict s) →
    ∃ t, exec (.packYuyv strict) s = .next t ∧ FrameDone s t (convertSpec .planar .yuyv strict s) ∧
      Shows .yuyv t.mem s.dstBase.toNat s.width.toNat s.height.toNat
        (sourcePicture .planar s s.width.toNat s.height.toNat)

/-- 41_format_conversion.md, UNPACK_YUYV: the destination shows the YUYV source in the planar layout, one chroma sample
per pair. -/
def Obligations.UnpackYuyvCompletes : Prop :=
  ∀ (strict : Bool) (s : State), FrameReady s (convertSpec .yuyv .planar strict s) →
    ∃ t, exec (.unpackYuyv strict) s = .next t ∧ FrameDone s t (convertSpec .yuyv .planar strict s) ∧
      Shows .planar t.mem s.dstBase.toNat s.width.toNat s.height.toNat
        (sourcePicture .yuyv s s.width.toNat s.height.toNat)

/-- 42_geometry.md, PAD_WIDTH in its three layouts: the destination shows the source picture padded to TARGET pixels,
floor((T − W)/4) neutral pairs on the left and the rest on the right. -/
def Obligations.PadWidthCompletes : Prop :=
  ∀ (i : Instr) (fmt : Layout) (strict : Bool) (s : State),
    (i, fmt) ∈
      [(.padWidthV210 strict, .v210), (.padWidthPlanar strict, .planar), (.padWidthYuyv strict, .yuyv)] →
    FrameReady s (padSpec fmt strict s) →
    ∃ t, exec i s = .next t ∧ FrameDone s t (padSpec fmt strict s) ∧
      Shows fmt t.mem s.dstBase.toNat s.target.toNat s.height.toNat
        (padPicture s.width.toNat s.target.toNat (sourcePicture fmt s s.width.toNat s.height.toNat))

/-- 42_geometry.md, CROP_PAD_HEIGHT in its three layouts: the destination shows the first TARGET lines of the source
picture, with neutral lines below where TARGET exceeds HEIGHT. -/
def Obligations.CropPadHeightCompletes : Prop :=
  ∀ (i : Instr) (fmt : Layout) (strict : Bool) (s : State),
    (i, fmt) ∈
      [(.cropPadHeightV210 strict, .v210), (.cropPadHeightPlanar strict, .planar),
       (.cropPadHeightYuyv strict, .yuyv)] →
    FrameReady s (cropSpec fmt strict s) →
    ∃ t, exec i s = .next t ∧ FrameDone s t (cropSpec fmt strict s) ∧
      Shows fmt t.mem s.dstBase.toNat s.width.toNat s.target.toNat
        (cropPicture s.height.toNat (sourcePicture fmt s s.width.toNat s.height.toNat))

/-- 20_memory.md section 4: the size function on the widths of vector V1 and the frames R70 works out. -/
def Obligations.FrameSizesOfTheExamples : Prop :=
  ([2, 46, 48, 50, 96, 98, 720, 1920].map fun w => frameBytes .v210 w 1) =
    [128, 128, 128, 256, 256, 384, 1920, 5120] ∧
  frameBytes .v210 720 480 = 921600 ∧ frameBytes .planar 720 480 = 1382400 ∧ frameBytes .yuyv 720 480 = 1382400 ∧
  ∀ (fmt : Layout) (w h : Nat), frameBytes fmt w h = bytesOf fmt w h

/-! ## Faults and the warning -/

/-- 60_exceptions.md R241: one command reports one code, the first failing check of the table, for the ten frame
commands, LDS, STS and any word written to CMD; and where no check fails the command completes. -/
def Obligations.FaultPriority : Prop :=
  (∀ (s : State) (c : Word) (rest : List HostAction), c ∉ legalWords → s.pending = .regWrite 0x00 32 c :: rest →
    step s = .next (faulted { s.taken rest with cmd := c } 5)) ∧
  (∀ (i : Instr) (s : State) (f : FrameSpec), frameSpec i s = some f →
    (¬ GeometryOk s f → exec i s = .next (faulted s 1)) ∧
    (GeometryOk s f → ¬ (SourceInside s ∧ DestInside s) → exec i s = .next (faulted s 6)) ∧
    (GeometryOk s f → SourceInside s → DestInside s → ¬ RegionsDisjoint s → exec i s = .next (faulted s 7)) ∧
    (GeometryOk s f → SourceInside s → DestInside s → RegionsDisjoint s → s.dstLen.toNat < f.needOut →
      exec i s = .next (faulted s 8)) ∧
    (GeometryOk s f → SourceInside s → DestInside s → RegionsDisjoint s → f.needOut ≤ s.dstLen.toNat →
      f.strict = true → s.srcLen.toNat < f.needIn → exec i s = .next (faulted s 2)) ∧
    (FrameReady s f → ∃ t, exec i s = .next t ∧ t.status.err = 0)) ∧
  (∀ s : State,
    (¬ SourceInside s → exec .lds s = .next (faulted s 6)) ∧
    (SourceInside s → s.srcLen.toNat < 2 * s.index.toNat + 2 → exec .lds s = .next (faulted s 2)) ∧
    (SourceInside s → 2 * s.index.toNat + 2 ≤ s.srcLen.toNat → ∃ t, exec .lds s = .next t ∧ t.status.err = 0) ∧
    (¬ DestInside s → exec .sts s = .next (faulted s 6)) ∧
    (DestInside s → s.dstLen.toNat < 2 * s.index.toNat + 2 → exec .sts s = .next (faulted s 3)) ∧
    (DestInside s → 2 * s.index.toNat + 2 ≤ s.dstLen.toNat → ∃ t, exec .sts s = .next t ∧ t.status.err = 0))

/-- 60_exceptions.md R230: whatever the command, a fault changes nothing but STATUS, which takes the code, WARN clear,
FAULTED set and WARNS as it was, and CMD, which holds the word; the host's later actions stay to come. -/
def Obligations.FaultChangesNothingButStatus : Prop :=
  (∀ (i : Instr) (s t : State), exec i s = .next t → t.status.err ≠ 0 → t = faulted s t.status.err) ∧
  (∀ (s t : State) (c : Word) (rest : List HostAction), s.pending = .regWrite 0x00 32 c :: rest → step s = .next t →
    t.status.err ≠ 0 → t = faulted { s.taken rest with cmd := c } t.status.err)

/-- 60_exceptions.md R235: every command answers a next state, and the code it leaves is never 4 (DegenerateRange) and
none of the reserved codes 9 to 15. -/
def Obligations.NoCommandReportsAnUnassignedCode : Prop :=
  ∀ (i : Instr) (s : State), ∃ t, exec i s = .next t ∧ t.status.err.toNat ≤ 8 ∧ t.status.err ≠ 4

/-- 60_exceptions.md section 2, the warning: a frame command with STRICT = 0 whose source is short completes with
ERR = 0, WARN = 1 and WARNS = 1; FAULTED stays as it was and OUT_LEN is the size of the output. -/
def Obligations.ShortSourceWarns : Prop :=
  ∀ (i : Instr) (s : State) (f : FrameSpec), frameSpec i s = some f → f.strict = false → FrameReady s f →
    s.srcLen.toNat < f.needIn →
    ∃ t, exec i s = .next t ∧ t.outLen.toNat = f.needOut ∧
      t.status = { err := 0, warn := true, warns := true, faulted := s.status.faulted }

/-- 60_exceptions.md section 4: FAULTED and WARNS stay set in every step but RESET. -/
def Obligations.StickyBitsStayUntilReset : Prop :=
  ∀ (s t : State) (a : HostAction) (rest : List HostAction), s.pending = a :: rest → a ≠ .reset →
    step s = .next t →
    (s.status.faulted = true → t.status.faulted = true) ∧ (s.status.warns = true → t.status.warns = true)

/-- 10_state.md R31: OUT_LEN takes the byte size of the output in every frame command that completes; a faulted
command and RGB2YCC, LDS and STS leave it. -/
def Obligations.OutLenIsTheProducedSize : Prop :=
  ∀ (i : Instr) (s t : State), exec i s = .next t →
    (∀ f, frameSpec i s = some f → t.status.err = 0 → t.outLen.toNat = f.needOut) ∧
    (t.status.err ≠ 0 → t.outLen = s.outLen) ∧
    (frameSpec i s = none → t.outLen = s.outLen)

/-! ## Frames and dependence -/

/-- 41_format_conversion.md section 1, "What a frame command leaves alone", which the spec marks as derived from the
shared body: a frame command writes no byte outside the first need_out of the destination region,
no source byte and no register but OUT_LEN and STATUS; source bytes from need_in on have no influence; with SRC_LEN = 0
and STRICT = 0 it completes with WARN = 1, and its output is the neutral frame. -/
def Obligations.FrameCommandsLeaveTheRestAlone : Prop :=
  (∀ (i : Instr) (s t : State) (f : FrameSpec), frameSpec i s = some f → exec i s = .next t →
    t = { s with mem := t.mem, outLen := t.outLen, status := t.status } ∧
    (∀ a, t.mem.read a ≠ s.mem.read a →
      s.dstBase.toNat ≤ a ∧ a < s.dstBase.toNat + f.needOut ∧ a < s.dstBase.toNat + s.dstLen.toNat) ∧
    (∀ k, k < s.srcLen.toNat → t.mem.read (s.srcBase.toNat + k) = s.mem.read (s.srcBase.toNat + k))) ∧
  (∀ (i : Instr) (s u t v : State) (f : FrameSpec), frameSpec i s = some f → u = { s with mem := u.mem } →
    (∀ k, k < f.needIn → k < s.srcLen.toNat →
      u.mem.read (s.srcBase.toNat + k) = s.mem.read (s.srcBase.toNat + k)) →
    exec i s = .next t → exec i u = .next v → v = { t with mem := v.mem } ∧
    (t.status.err = 0 → ∀ k, k < f.needOut →
      v.mem.read (s.dstBase.toNat + k) = t.mem.read (s.dstBase.toNat + k)) ∧
    (f.needIn ≤ s.srcLen.toNat → t.status.warn = false)) ∧
  (∀ (strict : Bool) (s : State), strict = false → s.srcLen.toNat = 0 →
    (FrameReady s (convertSpec .v210 .planar strict s) → ∃ t, exec (.unpackV210 strict) s = .next t ∧
      t.status.err = 0 ∧ t.status.warn = true ∧
      Shows .planar t.mem s.dstBase.toNat s.width.toNat s.height.toNat neutralPicture) ∧
    (FrameReady s (convertSpec .planar .v210 strict s) → ∃ t, exec (.packV210 strict) s = .next t ∧
      t.status.err = 0 ∧ t.status.warn = true ∧
      Shows .v210 t.mem s.dstBase.toNat s.width.toNat s.height.toNat neutralPicture) ∧
    (FrameReady s (convertSpec .planar .yuyv strict s) → ∃ t, exec (.packYuyv strict) s = .next t ∧
      t.status.err = 0 ∧ t.status.warn = true ∧
      Shows .yuyv t.mem s.dstBase.toNat s.width.toNat s.height.toNat neutralPicture) ∧
    (FrameReady s (convertSpec .yuyv .planar strict s) → ∃ t, exec (.unpackYuyv strict) s = .next t ∧
      t.status.err = 0 ∧ t.status.warn = true ∧
      Shows .planar t.mem s.dstBase.toNat s.width.toNat s.height.toNat neutralPicture) ∧
    (∀ (i : Instr) (fmt : Layout),
      (i, fmt) ∈
        [(.padWidthV210 strict, .v210), (.padWidthPlanar strict, .planar), (.padWidthYuyv strict, .yuyv)] →
      FrameReady s (padSpec fmt strict s) → ∃ t, exec i s = .next t ∧
        t.status.err = 0 ∧ t.status.warn = true ∧
        Shows fmt t.mem s.dstBase.toNat s.target.toNat s.height.toNat neutralPicture) ∧
    (∀ (i : Instr) (fmt : Layout),
      (i, fmt) ∈
        [(.cropPadHeightV210 strict, .v210), (.cropPadHeightPlanar strict, .planar),
         (.cropPadHeightYuyv strict, .yuyv)] →
      FrameReady s (cropSpec fmt strict s) → ∃ t, exec i s = .next t ∧
        t.status.err = 0 ∧ t.status.warn = true ∧
        Shows fmt t.mem s.dstBase.toNat s.width.toNat s.target.toNat neutralPicture))

/-- 30_encoding.md section 3 and 10_state.md section 3: the result of a command depends on the operands of its row of
the table alone. Two states that agree on them, whatever else they hold, get the same code, warning and result. -/
def Obligations.CommandsDependOnTheirOperandsOnly : Prop :=
  (∀ (i : Instr) (s u t v : State) (f : FrameSpec), frameSpec i s = some f → SameFrameOperands s u f.needIn →
    (readsTarget i = true → s.target = u.target) → exec i s = .next t → exec i u = .next v →
    t.status.err = v.status.err ∧ t.status.warn = v.status.warn ∧
    (t.status.err = 0 → t.outLen = v.outLen ∧
      ∀ k, k < f.needOut → t.mem.read (s.dstBase.toNat + k) = v.mem.read (s.dstBase.toNat + k))) ∧
  (∀ s u t v : State, s.r = u.r → s.g = u.g → s.b = u.b → exec .rgb2ycc s = .next t → exec .rgb2ycc u = .next v →
    t.y = v.y ∧ t.cb = v.cb ∧ t.cr = v.cr ∧ t.status.err = v.status.err ∧ t.status.warn = v.status.warn) ∧
  (∀ s u t v : State, s.aw = u.aw → s.srcBase = u.srcBase → s.srcLen = u.srcLen → s.index = u.index →
    (∀ k, k < 2 → s.mem.read (ldsAddress s + k) = u.mem.read (ldsAddress s + k)) →
    exec .lds s = .next t → exec .lds u = .next v →
    t.status.err = v.status.err ∧ t.status.warn = v.status.warn ∧ (t.status.err = 0 → t.smp = v.smp)) ∧
  (∀ s u t v : State, s.aw = u.aw → s.dstBase = u.dstBase → s.dstLen = u.dstLen → s.index = u.index → s.smp = u.smp →
    exec .sts s = .next t → exec .sts u = .next v →
    t.status.err = v.status.err ∧ t.status.warn = v.status.warn ∧
    (t.status.err = 0 → ∀ k, k < 2 → t.mem.read (stsAddress s + k) = v.mem.read (stsAddress s + k)))

/-- 20_memory.md section 2, alignment: the same source bytes at any base, of any parity, give the same output at any
base: where both commands complete, the buffers they produce agree byte by byte. -/
def Obligations.BufferPlacementDoesNotMatter : Prop :=
  ∀ (i : Instr) (s u t v : State) (f : FrameSpec), frameSpec i s = some f →
    s.width = u.width → s.height = u.height → s.target = u.target → s.srcLen = u.srcLen →
    (∀ k, k < s.srcLen.toNat → s.mem.read (s.srcBase.toNat + k) = u.mem.read (u.srcBase.toNat + k)) →
    Completes i s t → Completes i u v →
    t.outLen = v.outLen ∧ t.status.warn = v.status.warn ∧
    ∀ k, k < f.needOut → t.mem.read (s.dstBase.toNat + k) = v.mem.read (u.dstBase.toNat + k)

/-- 10_state.md section 4: the engine writes memory only inside the destination region. In any step a byte that
changes is one that a host MW stores or lies in the destination region of a command. -/
def Obligations.MemoryChangesOnlyWhereItMay : Prop :=
  ∀ (s t : State) (a : HostAction) (rest : List HostAction), s.pending = a :: rest → step s = .next t →
    ∀ x, t.mem.read x ≠ s.mem.read x →
      (∃ addr n v, a = .memWrite addr n v ∧ addr ≤ x ∧ x < addr + n) ∨
      (∃ c, a = .regWrite 0x00 32 c ∧ s.dstBase.toNat ≤ x ∧ x < s.dstBase.toNat + s.dstLen.toNat)

/-! ## Layout laws, round trips, commutation -/

/-- 20_memory.md section 5, "Decode after Encode is the identity", which the spec marks as derived from the layouts:
for every layout and every logical frame, the bytes Encode writes, presented as a source of at least Bytes(fmt, w, h),
decode to the frame, with the short flag clear; w even, not necessarily a multiple of 6. -/
def Obligations.DecodeAfterEncodeIsTheIdentity : Prop :=
  ∀ (fmt : Layout) (F : Frame) (w h : Nat) (s : State), w % 2 = 0 → 2 ≤ w → 1 ≤ h →
    frameBytes fmt w h ≤ s.srcLen.toNat →
    (∀ k (hk : k < (encodeFrame fmt F w h).length),
      s.mem.read (s.srcBase.toNat + k) = (encodeFrame fmt F w h)[k]) →
    (∀ (c : Comp) (r x : Nat), r < h → x < compWidth c w → decodeFrame fmt s w h c r x = F c r x) ∧
    s.short fmt w h = false

/-- 41_format_conversion.md section 3, "Round trip", which the spec marks as derived: the round trips (a), (b) and (c)
of a planar buffer give every container masked to 10 bits, and the buffer byte for byte when its containers are clean.
-/
def Obligations.PlanarRoundTrips : Prop :=
  ∀ (s t1 t2 : State) (k1 k2 : Bool) (d n : Word), let w := s.width.toNat; let h := s.height.toNat
    4 * w * h ≤ s.srcLen.toNat →
    let Same := fun (t : State) (base : Nat) =>
      (∀ q, q < 2 * w * h →
        t.mem.readLE (base + 2 * q) 2 = s.mem.readLE (s.srcBase.toNat + 2 * q) 2 % 1024) ∧
      ((∀ q, q < 2 * w * h → s.mem.readLE (s.srcBase.toNat + 2 * q) 2 < 1024) →
        ∀ j, j < 4 * w * h → t.mem.read (base + j) = s.mem.read (s.srcBase.toNat + j))
    (Completes (.packV210 k1) s t1 → Completes (.unpackV210 k2) (t1.chain d n s.width s.height s.target) t2 →
      Same t2 d.toNat) ∧
    (Completes (.packYuyv k1) s t1 → Completes (.unpackYuyv k2) (t1.chain d n s.width s.height s.target) t2 →
      Same t2 d.toNat) ∧
    (∀ (t3 t4 : State) (k3 k4 : Bool) (d' n' d'' n'' : Word), Completes (.packV210 k1) s t1 →
      Completes (.unpackV210 k2) (t1.chain d n s.width s.height s.target) t2 →
      Completes (.packYuyv k3) (t2.chain d' n' s.width s.height s.target) t3 →
      Completes (.unpackYuyv k4) (t3.chain d'' n'' s.width s.height s.target) t4 → Same t4 d''.toNat)

/-- 41_format_conversion.md section 3, "The opposite round trips", which the spec marks as derived: YUYV to PLANAR to
YUYV gives every container masked to 10 bits; V210 to PLANAR to V210 gives the sample-carrying fields with zero in all
other bits, and so the same bytes exactly when those were zero already. -/
def Obligations.PackedRoundTrips : Prop :=
  ∀ (s t1 t2 : State) (k1 k2 : Bool) (d n : Word), let w := s.width.toNat; let h := s.height.toNat
    (4 * w * h ≤ s.srcLen.toNat → Completes (.unpackYuyv k1) s t1 →
      Completes (.packYuyv k2) (t1.chain d n s.width s.height s.target) t2 →
      ∀ q, q < 2 * w * h →
        t2.mem.readLE (d.toNat + 2 * q) 2 = s.mem.readLE (s.srcBase.toNat + 2 * q) 2 % 1024) ∧
    (bytesOf .v210 w h ≤ s.srcLen.toNat → Completes (.unpackV210 k1) s t1 →
      Completes (.packV210 k2) (t1.chain d n s.width s.height s.target) t2 →
      Shows .v210 t2.mem d.toNat w h (sourcePicture .v210 s w h) ∧
      ((∀ j, j < bytesOf .v210 w h → t2.mem.read (d.toNat + j) = s.mem.read (s.srcBase.toNat + j)) ↔
        Shows .v210 s.mem s.srcBase.toNat w h (sourcePicture .v210 s w h)))

/-- 42_geometry.md, "Composition", which the spec marks as derived: PAD_WIDTH then CROP_PAD_HEIGHT gives the same
output frame as CROP_PAD_HEIGHT then PAD_WIDTH, in each layout, for every source, short or not. -/
def Obligations.PadAndCropCommute : Prop :=
  ∀ (fmt : Layout) (pad crop : Instr) (k1 k2 : Bool),
    (fmt, pad, crop) ∈
      [(.v210, .padWidthV210 k1, .cropPadHeightV210 k2), (.planar, .padWidthPlanar k1, .cropPadHeightPlanar k2),
       (.yuyv, .padWidthYuyv k1, .cropPadHeightYuyv k2)] →
    ∀ (s t1 t2 u1 u2 : State) (wt ht m1 n1 m2 n2 d n : Word),
    Completes pad { s with dstBase := m1, dstLen := n1, target := wt } t1 →
    Completes crop (t1.chain d n wt s.height ht) t2 →
    Completes crop { s with dstBase := m2, dstLen := n2, target := ht } u1 →
    Completes pad (u1.chain d n s.width ht wt) u2 →
    t2.outLen = u2.outLen ∧ t2.outLen.toNat = bytesOf fmt wt.toNat ht.toNat ∧
    ∀ k, k < t2.outLen.toNat → t2.mem.read (d.toNat + k) = u2.mem.read (d.toNat + k)

/-- 30_encoding.md section 5 (`V210_TO_YUYV tmp, tn`), 41_format_conversion.md section 3: the eight host actions, run
from any state in which both commands' conditions hold, leave at the destination the YUYV picture of the v210 source. -/
def Obligations.V210ToYuyvShowsTheSource : Prop :=
  ∀ (s : State) (tmp tn d dn : Word), let w := s.width.toNat; let h := s.height.toNat
    let s1 := { s with dstBase := tmp, dstLen := tn }
    let n : Word := BitVec.ofNat 32 (4 * w * h)
    let s2 := { s with srcBase := tmp, srcLen := n, dstBase := d, dstLen := dn }
    FrameReady s1 (convertSpec .v210 .planar false s1) → FrameReady s2 (convertSpec .planar .yuyv false s2) →
    s.pending = v210ToYuyv tmp tn n d dn →
    ∃ t, Host.Core.run core 8 s = .next t ∧ t.status.err = 0 ∧ t.outLen = n ∧ t.pending = [] ∧
      Shows .yuyv t.mem d.toNat w h (sourcePicture .v210 s w h)

/-! ## Invariants and safe runs -/

/-- The invariant holds after reset, and at power-on with any memory in canonical form inside 2^AW. What `State.reset`
holds in memory and for AW is the model's choice (logs 2, 3). -/
def Obligations.ResetMeetsTheInvariant : Prop :=
  State.reset.Inv ∧
  ∀ (m : Memory) (aw : Nat), m.wf → m.inside aw → Config.legalAW aw → (State.powerOn m aw).Inv

/-- Every step keeps the invariant: canonical memory inside 2^AW, AW between 1 and 32, a legal STATUS, legal result
registers; and AW itself never changes. -/
def Obligations.EveryStepKeepsTheInvariant : Prop :=
  ∀ s t : State, s.Inv → step s = .next t → t.Inv ∧ t.aw = s.aw

/-- 10_state.md section 5, 70_reset_and_hazards.md section 4 (every command terminates): while the host performs only
its own actions, no run of any length stops with a fault or a refusal. -/
def Obligations.LegalHostActionsNeverStopTheMachine : Prop :=
  ∀ (s : State), s.Safe → ∀ n, ∃ t, Host.Core.run core n s = .next t ∧ t.Safe

/-- The canonical form is one form: memories in it that read alike are equal data. The form is the model's (log 3). -/
def Obligations.CanonicalMemoriesThatReadAlikeAreEqual : Prop :=
  ∀ m m' : Memory, m.wf → m'.wf → (∀ a, m.read a = m'.read a) → m = m'
end

