-- ==== Sys2Proof/Laws/State.lean ====
section
/-! SUPPORT. One lemma per field per update of State, and per field of STATUS per update, each true by rfl. -/

namespace Sys2Proof.Machine

/-! ## complete -/

@[simp] theorem State.complete_cmd (s : State) (w : Bool) : (s.complete w).cmd = s.cmd := rfl
@[simp] theorem State.complete_status (s : State) (w : Bool) : (s.complete w).status = s.status.completed w := rfl
@[simp] theorem State.complete_srcBase (s : State) (w : Bool) : (s.complete w).srcBase = s.srcBase := rfl
@[simp] theorem State.complete_srcLen (s : State) (w : Bool) : (s.complete w).srcLen = s.srcLen := rfl
@[simp] theorem State.complete_dstBase (s : State) (w : Bool) : (s.complete w).dstBase = s.dstBase := rfl
@[simp] theorem State.complete_dstLen (s : State) (w : Bool) : (s.complete w).dstLen = s.dstLen := rfl
@[simp] theorem State.complete_width (s : State) (w : Bool) : (s.complete w).width = s.width := rfl
@[simp] theorem State.complete_height (s : State) (w : Bool) : (s.complete w).height = s.height := rfl
@[simp] theorem State.complete_target (s : State) (w : Bool) : (s.complete w).target = s.target := rfl
@[simp] theorem State.complete_index (s : State) (w : Bool) : (s.complete w).index = s.index := rfl
@[simp] theorem State.complete_smp (s : State) (w : Bool) : (s.complete w).smp = s.smp := rfl
@[simp] theorem State.complete_r (s : State) (w : Bool) : (s.complete w).r = s.r := rfl
@[simp] theorem State.complete_g (s : State) (w : Bool) : (s.complete w).g = s.g := rfl
@[simp] theorem State.complete_b (s : State) (w : Bool) : (s.complete w).b = s.b := rfl
@[simp] theorem State.complete_y (s : State) (w : Bool) : (s.complete w).y = s.y := rfl
@[simp] theorem State.complete_cb (s : State) (w : Bool) : (s.complete w).cb = s.cb := rfl
@[simp] theorem State.complete_cr (s : State) (w : Bool) : (s.complete w).cr = s.cr := rfl
@[simp] theorem State.complete_outLen (s : State) (w : Bool) : (s.complete w).outLen = s.outLen := rfl
@[simp] theorem State.complete_mem (s : State) (w : Bool) : (s.complete w).mem = s.mem := rfl
@[simp] theorem State.complete_aw (s : State) (w : Bool) : (s.complete w).aw = s.aw := rfl
@[simp] theorem State.complete_pending (s : State) (w : Bool) : (s.complete w).pending = s.pending := rfl
@[simp] theorem State.complete_reply (s : State) (w : Bool) : (s.complete w).reply = s.reply := rfl

/-! ## raiseFault -/

@[simp] theorem State.raiseFault_cmd (s : State) (k : FaultCode) : (s.raiseFault k).cmd = s.cmd := rfl
@[simp] theorem State.raiseFault_status (s : State) (k : FaultCode) : (s.raiseFault k).status = s.status.faultedWith k := rfl
@[simp] theorem State.raiseFault_srcBase (s : State) (k : FaultCode) : (s.raiseFault k).srcBase = s.srcBase := rfl
@[simp] theorem State.raiseFault_srcLen (s : State) (k : FaultCode) : (s.raiseFault k).srcLen = s.srcLen := rfl
@[simp] theorem State.raiseFault_dstBase (s : State) (k : FaultCode) : (s.raiseFault k).dstBase = s.dstBase := rfl
@[simp] theorem State.raiseFault_dstLen (s : State) (k : FaultCode) : (s.raiseFault k).dstLen = s.dstLen := rfl
@[simp] theorem State.raiseFault_width (s : State) (k : FaultCode) : (s.raiseFault k).width = s.width := rfl
@[simp] theorem State.raiseFault_height (s : State) (k : FaultCode) : (s.raiseFault k).height = s.height := rfl
@[simp] theorem State.raiseFault_target (s : State) (k : FaultCode) : (s.raiseFault k).target = s.target := rfl
@[simp] theorem State.raiseFault_index (s : State) (k : FaultCode) : (s.raiseFault k).index = s.index := rfl
@[simp] theorem State.raiseFault_smp (s : State) (k : FaultCode) : (s.raiseFault k).smp = s.smp := rfl
@[simp] theorem State.raiseFault_r (s : State) (k : FaultCode) : (s.raiseFault k).r = s.r := rfl
@[simp] theorem State.raiseFault_g (s : State) (k : FaultCode) : (s.raiseFault k).g = s.g := rfl
@[simp] theorem State.raiseFault_b (s : State) (k : FaultCode) : (s.raiseFault k).b = s.b := rfl
@[simp] theorem State.raiseFault_y (s : State) (k : FaultCode) : (s.raiseFault k).y = s.y := rfl
@[simp] theorem State.raiseFault_cb (s : State) (k : FaultCode) : (s.raiseFault k).cb = s.cb := rfl
@[simp] theorem State.raiseFault_cr (s : State) (k : FaultCode) : (s.raiseFault k).cr = s.cr := rfl
@[simp] theorem State.raiseFault_outLen (s : State) (k : FaultCode) : (s.raiseFault k).outLen = s.outLen := rfl
@[simp] theorem State.raiseFault_mem (s : State) (k : FaultCode) : (s.raiseFault k).mem = s.mem := rfl
@[simp] theorem State.raiseFault_aw (s : State) (k : FaultCode) : (s.raiseFault k).aw = s.aw := rfl
@[simp] theorem State.raiseFault_pending (s : State) (k : FaultCode) : (s.raiseFault k).pending = s.pending := rfl
@[simp] theorem State.raiseFault_reply (s : State) (k : FaultCode) : (s.raiseFault k).reply = s.reply := rfl

/-! ## cleared -/

@[simp] theorem State.cleared_cmd (m : Memory) (aw : Nat) (p : List HostAction) : (State.cleared m aw p).cmd = 0 := rfl
@[simp] theorem State.cleared_status (m : Memory) (aw : Nat) (p : List HostAction) : (State.cleared m aw p).status = ⟨0, false, false, false⟩ := rfl
@[simp] theorem State.cleared_srcBase (m : Memory) (aw : Nat) (p : List HostAction) : (State.cleared m aw p).srcBase = 0 := rfl
@[simp] theorem State.cleared_srcLen (m : Memory) (aw : Nat) (p : List HostAction) : (State.cleared m aw p).srcLen = 0 := rfl
@[simp] theorem State.cleared_dstBase (m : Memory) (aw : Nat) (p : List HostAction) : (State.cleared m aw p).dstBase = 0 := rfl
@[simp] theorem State.cleared_dstLen (m : Memory) (aw : Nat) (p : List HostAction) : (State.cleared m aw p).dstLen = 0 := rfl
@[simp] theorem State.cleared_width (m : Memory) (aw : Nat) (p : List HostAction) : (State.cleared m aw p).width = 0 := rfl
@[simp] theorem State.cleared_height (m : Memory) (aw : Nat) (p : List HostAction) : (State.cleared m aw p).height = 0 := rfl
@[simp] theorem State.cleared_target (m : Memory) (aw : Nat) (p : List HostAction) : (State.cleared m aw p).target = 0 := rfl
@[simp] theorem State.cleared_index (m : Memory) (aw : Nat) (p : List HostAction) : (State.cleared m aw p).index = 0 := rfl
@[simp] theorem State.cleared_smp (m : Memory) (aw : Nat) (p : List HostAction) : (State.cleared m aw p).smp = 0 := rfl
@[simp] theorem State.cleared_r (m : Memory) (aw : Nat) (p : List HostAction) : (State.cleared m aw p).r = 0 := rfl
@[simp] theorem State.cleared_g (m : Memory) (aw : Nat) (p : List HostAction) : (State.cleared m aw p).g = 0 := rfl
@[simp] theorem State.cleared_b (m : Memory) (aw : Nat) (p : List HostAction) : (State.cleared m aw p).b = 0 := rfl
@[simp] theorem State.cleared_y (m : Memory) (aw : Nat) (p : List HostAction) : (State.cleared m aw p).y = 0 := rfl
@[simp] theorem State.cleared_cb (m : Memory) (aw : Nat) (p : List HostAction) : (State.cleared m aw p).cb = 0 := rfl
@[simp] theorem State.cleared_cr (m : Memory) (aw : Nat) (p : List HostAction) : (State.cleared m aw p).cr = 0 := rfl
@[simp] theorem State.cleared_outLen (m : Memory) (aw : Nat) (p : List HostAction) : (State.cleared m aw p).outLen = 0 := rfl
@[simp] theorem State.cleared_mem (m : Memory) (aw : Nat) (p : List HostAction) : (State.cleared m aw p).mem = m := rfl
@[simp] theorem State.cleared_aw (m : Memory) (aw : Nat) (p : List HostAction) : (State.cleared m aw p).aw = aw := rfl
@[simp] theorem State.cleared_pending (m : Memory) (aw : Nat) (p : List HostAction) : (State.cleared m aw p).pending = p := rfl
@[simp] theorem State.cleared_reply (m : Memory) (aw : Nat) (p : List HostAction) : (State.cleared m aw p).reply = none := rfl

/-! ## withFetchWord -/

@[simp] theorem State.withFetchWord_cmd (s : State) (nbits w : Nat) : (s.withFetchWord nbits w).cmd = s.cmd := rfl
@[simp] theorem State.withFetchWord_status (s : State) (nbits w : Nat) : (s.withFetchWord nbits w).status = s.status := rfl
@[simp] theorem State.withFetchWord_srcBase (s : State) (nbits w : Nat) : (s.withFetchWord nbits w).srcBase = s.srcBase := rfl
@[simp] theorem State.withFetchWord_srcLen (s : State) (nbits w : Nat) : (s.withFetchWord nbits w).srcLen = s.srcLen := rfl
@[simp] theorem State.withFetchWord_dstBase (s : State) (nbits w : Nat) : (s.withFetchWord nbits w).dstBase = s.dstBase := rfl
@[simp] theorem State.withFetchWord_dstLen (s : State) (nbits w : Nat) : (s.withFetchWord nbits w).dstLen = s.dstLen := rfl
@[simp] theorem State.withFetchWord_width (s : State) (nbits w : Nat) : (s.withFetchWord nbits w).width = s.width := rfl
@[simp] theorem State.withFetchWord_height (s : State) (nbits w : Nat) : (s.withFetchWord nbits w).height = s.height := rfl
@[simp] theorem State.withFetchWord_target (s : State) (nbits w : Nat) : (s.withFetchWord nbits w).target = s.target := rfl
@[simp] theorem State.withFetchWord_index (s : State) (nbits w : Nat) : (s.withFetchWord nbits w).index = s.index := rfl
@[simp] theorem State.withFetchWord_smp (s : State) (nbits w : Nat) : (s.withFetchWord nbits w).smp = s.smp := rfl
@[simp] theorem State.withFetchWord_r (s : State) (nbits w : Nat) : (s.withFetchWord nbits w).r = s.r := rfl
@[simp] theorem State.withFetchWord_g (s : State) (nbits w : Nat) : (s.withFetchWord nbits w).g = s.g := rfl
@[simp] theorem State.withFetchWord_b (s : State) (nbits w : Nat) : (s.withFetchWord nbits w).b = s.b := rfl
@[simp] theorem State.withFetchWord_y (s : State) (nbits w : Nat) : (s.withFetchWord nbits w).y = s.y := rfl
@[simp] theorem State.withFetchWord_cb (s : State) (nbits w : Nat) : (s.withFetchWord nbits w).cb = s.cb := rfl
@[simp] theorem State.withFetchWord_cr (s : State) (nbits w : Nat) : (s.withFetchWord nbits w).cr = s.cr := rfl
@[simp] theorem State.withFetchWord_outLen (s : State) (nbits w : Nat) : (s.withFetchWord nbits w).outLen = s.outLen := rfl
@[simp] theorem State.withFetchWord_mem (s : State) (nbits w : Nat) : (s.withFetchWord nbits w).mem = s.mem := rfl
@[simp] theorem State.withFetchWord_aw (s : State) (nbits w : Nat) : (s.withFetchWord nbits w).aw = s.aw := rfl
@[simp] theorem State.withFetchWord_pending (s : State) (nbits w : Nat) : (s.withFetchWord nbits w).pending = issueWord nbits w :: s.pending := rfl
@[simp] theorem State.withFetchWord_reply (s : State) (nbits w : Nat) : (s.withFetchWord nbits w).reply = s.reply := rfl

/-! ## the commit part of LDS -/

@[simp] theorem ldsCommit_cmd (s : State)  : (ldsCommit s).cmd = s.cmd := rfl
@[simp] theorem ldsCommit_status (s : State)  : (ldsCommit s).status = s.status.completed false := rfl
@[simp] theorem ldsCommit_srcBase (s : State)  : (ldsCommit s).srcBase = s.srcBase := rfl
@[simp] theorem ldsCommit_srcLen (s : State)  : (ldsCommit s).srcLen = s.srcLen := rfl
@[simp] theorem ldsCommit_dstBase (s : State)  : (ldsCommit s).dstBase = s.dstBase := rfl
@[simp] theorem ldsCommit_dstLen (s : State)  : (ldsCommit s).dstLen = s.dstLen := rfl
@[simp] theorem ldsCommit_width (s : State)  : (ldsCommit s).width = s.width := rfl
@[simp] theorem ldsCommit_height (s : State)  : (ldsCommit s).height = s.height := rfl
@[simp] theorem ldsCommit_target (s : State)  : (ldsCommit s).target = s.target := rfl
@[simp] theorem ldsCommit_index (s : State)  : (ldsCommit s).index = s.index := rfl
@[simp] theorem ldsCommit_smp (s : State)  : (ldsCommit s).smp = containerSample (s.mem.readLE (ldsAddress s) 2) := rfl
@[simp] theorem ldsCommit_r (s : State)  : (ldsCommit s).r = s.r := rfl
@[simp] theorem ldsCommit_g (s : State)  : (ldsCommit s).g = s.g := rfl
@[simp] theorem ldsCommit_b (s : State)  : (ldsCommit s).b = s.b := rfl
@[simp] theorem ldsCommit_y (s : State)  : (ldsCommit s).y = s.y := rfl
@[simp] theorem ldsCommit_cb (s : State)  : (ldsCommit s).cb = s.cb := rfl
@[simp] theorem ldsCommit_cr (s : State)  : (ldsCommit s).cr = s.cr := rfl
@[simp] theorem ldsCommit_outLen (s : State)  : (ldsCommit s).outLen = s.outLen := rfl
@[simp] theorem ldsCommit_mem (s : State)  : (ldsCommit s).mem = s.mem := rfl
@[simp] theorem ldsCommit_aw (s : State)  : (ldsCommit s).aw = s.aw := rfl
@[simp] theorem ldsCommit_pending (s : State)  : (ldsCommit s).pending = s.pending := rfl
@[simp] theorem ldsCommit_reply (s : State)  : (ldsCommit s).reply = s.reply := rfl

/-! ## the commit part of STS -/

@[simp] theorem stsCommit_cmd (s : State)  : (stsCommit s).cmd = s.cmd := rfl
@[simp] theorem stsCommit_status (s : State)  : (stsCommit s).status = s.status.completed false := rfl
@[simp] theorem stsCommit_srcBase (s : State)  : (stsCommit s).srcBase = s.srcBase := rfl
@[simp] theorem stsCommit_srcLen (s : State)  : (stsCommit s).srcLen = s.srcLen := rfl
@[simp] theorem stsCommit_dstBase (s : State)  : (stsCommit s).dstBase = s.dstBase := rfl
@[simp] theorem stsCommit_dstLen (s : State)  : (stsCommit s).dstLen = s.dstLen := rfl
@[simp] theorem stsCommit_width (s : State)  : (stsCommit s).width = s.width := rfl
@[simp] theorem stsCommit_height (s : State)  : (stsCommit s).height = s.height := rfl
@[simp] theorem stsCommit_target (s : State)  : (stsCommit s).target = s.target := rfl
@[simp] theorem stsCommit_index (s : State)  : (stsCommit s).index = s.index := rfl
@[simp] theorem stsCommit_smp (s : State)  : (stsCommit s).smp = s.smp := rfl
@[simp] theorem stsCommit_r (s : State)  : (stsCommit s).r = s.r := rfl
@[simp] theorem stsCommit_g (s : State)  : (stsCommit s).g = s.g := rfl
@[simp] theorem stsCommit_b (s : State)  : (stsCommit s).b = s.b := rfl
@[simp] theorem stsCommit_y (s : State)  : (stsCommit s).y = s.y := rfl
@[simp] theorem stsCommit_cb (s : State)  : (stsCommit s).cb = s.cb := rfl
@[simp] theorem stsCommit_cr (s : State)  : (stsCommit s).cr = s.cr := rfl
@[simp] theorem stsCommit_outLen (s : State)  : (stsCommit s).outLen = s.outLen := rfl
@[simp] theorem stsCommit_mem (s : State)  : (stsCommit s).mem = s.mem.writeLE (stsAddress s) 2 s.smp.toNat := rfl
@[simp] theorem stsCommit_aw (s : State)  : (stsCommit s).aw = s.aw := rfl
@[simp] theorem stsCommit_pending (s : State)  : (stsCommit s).pending = s.pending := rfl
@[simp] theorem stsCommit_reply (s : State)  : (stsCommit s).reply = s.reply := rfl

/-! ## the commit part of a frame command -/

@[simp] theorem frameCommit_cmd (fin fout : Layout) (T : Transform) (s : State) : (frameCommit fin fout T s).cmd = s.cmd := rfl
@[simp] theorem frameCommit_srcBase (fin fout : Layout) (T : Transform) (s : State) : (frameCommit fin fout T s).srcBase = s.srcBase := rfl
@[simp] theorem frameCommit_srcLen (fin fout : Layout) (T : Transform) (s : State) : (frameCommit fin fout T s).srcLen = s.srcLen := rfl
@[simp] theorem frameCommit_dstBase (fin fout : Layout) (T : Transform) (s : State) : (frameCommit fin fout T s).dstBase = s.dstBase := rfl
@[simp] theorem frameCommit_dstLen (fin fout : Layout) (T : Transform) (s : State) : (frameCommit fin fout T s).dstLen = s.dstLen := rfl
@[simp] theorem frameCommit_width (fin fout : Layout) (T : Transform) (s : State) : (frameCommit fin fout T s).width = s.width := rfl
@[simp] theorem frameCommit_height (fin fout : Layout) (T : Transform) (s : State) : (frameCommit fin fout T s).height = s.height := rfl
@[simp] theorem frameCommit_target (fin fout : Layout) (T : Transform) (s : State) : (frameCommit fin fout T s).target = s.target := rfl
@[simp] theorem frameCommit_index (fin fout : Layout) (T : Transform) (s : State) : (frameCommit fin fout T s).index = s.index := rfl
@[simp] theorem frameCommit_smp (fin fout : Layout) (T : Transform) (s : State) : (frameCommit fin fout T s).smp = s.smp := rfl
@[simp] theorem frameCommit_r (fin fout : Layout) (T : Transform) (s : State) : (frameCommit fin fout T s).r = s.r := rfl
@[simp] theorem frameCommit_g (fin fout : Layout) (T : Transform) (s : State) : (frameCommit fin fout T s).g = s.g := rfl
@[simp] theorem frameCommit_b (fin fout : Layout) (T : Transform) (s : State) : (frameCommit fin fout T s).b = s.b := rfl
@[simp] theorem frameCommit_y (fin fout : Layout) (T : Transform) (s : State) : (frameCommit fin fout T s).y = s.y := rfl
@[simp] theorem frameCommit_cb (fin fout : Layout) (T : Transform) (s : State) : (frameCommit fin fout T s).cb = s.cb := rfl
@[simp] theorem frameCommit_cr (fin fout : Layout) (T : Transform) (s : State) : (frameCommit fin fout T s).cr = s.cr := rfl
@[simp] theorem frameCommit_aw (fin fout : Layout) (T : Transform) (s : State) : (frameCommit fin fout T s).aw = s.aw := rfl
@[simp] theorem frameCommit_pending (fin fout : Layout) (T : Transform) (s : State) : (frameCommit fin fout T s).pending = s.pending := rfl
@[simp] theorem frameCommit_reply (fin fout : Layout) (T : Transform) (s : State) : (frameCommit fin fout T s).reply = s.reply := rfl

/-! ## STATUS -/

@[simp] theorem Status.completed_err (st : Status) (w : Bool) : (st.completed w).err = 0 := rfl
@[simp] theorem Status.completed_warn (st : Status) (w : Bool) : (st.completed w).warn = w := rfl
@[simp] theorem Status.completed_warns (st : Status) (w : Bool) : (st.completed w).warns = (st.warns || w) := rfl
@[simp] theorem Status.completed_faulted (st : Status) (w : Bool) : (st.completed w).faulted = st.faulted := rfl
@[simp] theorem Status.faultedWith_err (st : Status) (k : FaultCode) : (st.faultedWith k).err = k.code := rfl
@[simp] theorem Status.faultedWith_warn (st : Status) (k : FaultCode) : (st.faultedWith k).warn = false := rfl
@[simp] theorem Status.faultedWith_warns (st : Status) (k : FaultCode) : (st.faultedWith k).warns = st.warns := rfl
@[simp] theorem Status.faultedWith_faulted (st : Status) (k : FaultCode) : (st.faultedWith k).faulted = true := rfl

/-! ## checked -/

@[simp] theorem State.checked_some (s : State) (k : FaultCode) (c : State → State) :
    s.checked (some k) c = s.raiseFault k := rfl
@[simp] theorem State.checked_none (s : State) (c : State → State) : s.checked none c = c s := rfl

/-- Everything a checked command can do: it takes the fault its checks name, or it commits. -/
theorem State.checked_cases {s t : State} {f : Option FaultCode} {c : State → State} (h : s.checked f c = t) :
    (∃ k, f = some k ∧ t = s.raiseFault k) ∨ (f = none ∧ t = c s) := by
  cases f with
  | some k => exact .inl ⟨k, rfl, h.symm⟩
  | none => exact .inr ⟨rfl, h.symm⟩

theorem FaultCode.code_ne_zero (k : FaultCode) : k.code ≠ 0 := by cases k <;> decide

/-- STATUS as a number: ERR + 16·WARN + 32·WARNS + 64·FAULTED. -/
theorem Status.toNat_toWord (st : Status) :
    st.toWord.toNat = st.err.toNat + 16 * st.warn.toNat + 32 * st.warns.toNat + 64 * st.faulted.toNat := by
  obtain ⟨e, w, ws, f⟩ := st
  cases w <;> cases ws <;> cases f <;> revert e <;> decide

end Sys2Proof.Machine
end

