-- ==== Sys2Proof/Laws/Claims.lean ====
section
/-! SUPPORT. The words of Safety.lean that update a state, field by field, and how they meet the machine's own. -/

namespace Sys2Proof.Machine

@[simp] theorem State.taken_cmd (s : State) (rest : List HostAction) : (s.taken rest).cmd = s.cmd := rfl
@[simp] theorem State.taken_status (s : State) (rest : List HostAction) : (s.taken rest).status = s.status := rfl
@[simp] theorem State.taken_srcBase (s : State) (rest : List HostAction) : (s.taken rest).srcBase = s.srcBase := rfl
@[simp] theorem State.taken_srcLen (s : State) (rest : List HostAction) : (s.taken rest).srcLen = s.srcLen := rfl
@[simp] theorem State.taken_dstBase (s : State) (rest : List HostAction) : (s.taken rest).dstBase = s.dstBase := rfl
@[simp] theorem State.taken_dstLen (s : State) (rest : List HostAction) : (s.taken rest).dstLen = s.dstLen := rfl
@[simp] theorem State.taken_width (s : State) (rest : List HostAction) : (s.taken rest).width = s.width := rfl
@[simp] theorem State.taken_height (s : State) (rest : List HostAction) : (s.taken rest).height = s.height := rfl
@[simp] theorem State.taken_target (s : State) (rest : List HostAction) : (s.taken rest).target = s.target := rfl
@[simp] theorem State.taken_index (s : State) (rest : List HostAction) : (s.taken rest).index = s.index := rfl
@[simp] theorem State.taken_smp (s : State) (rest : List HostAction) : (s.taken rest).smp = s.smp := rfl
@[simp] theorem State.taken_r (s : State) (rest : List HostAction) : (s.taken rest).r = s.r := rfl
@[simp] theorem State.taken_g (s : State) (rest : List HostAction) : (s.taken rest).g = s.g := rfl
@[simp] theorem State.taken_b (s : State) (rest : List HostAction) : (s.taken rest).b = s.b := rfl
@[simp] theorem State.taken_y (s : State) (rest : List HostAction) : (s.taken rest).y = s.y := rfl
@[simp] theorem State.taken_cb (s : State) (rest : List HostAction) : (s.taken rest).cb = s.cb := rfl
@[simp] theorem State.taken_cr (s : State) (rest : List HostAction) : (s.taken rest).cr = s.cr := rfl
@[simp] theorem State.taken_outLen (s : State) (rest : List HostAction) : (s.taken rest).outLen = s.outLen := rfl
@[simp] theorem State.taken_mem (s : State) (rest : List HostAction) : (s.taken rest).mem = s.mem := rfl
@[simp] theorem State.taken_aw (s : State) (rest : List HostAction) : (s.taken rest).aw = s.aw := rfl
@[simp] theorem State.taken_pending (s : State) (rest : List HostAction) : (s.taken rest).pending = rest := rfl
@[simp] theorem State.taken_reply (s : State) (rest : List HostAction) : (s.taken rest).reply = none := rfl

@[simp] theorem State.chain_cmd (s : State) (d n w h t : Word) : (s.chain d n w h t).cmd = s.cmd := rfl
@[simp] theorem State.chain_status (s : State) (d n w h t : Word) : (s.chain d n w h t).status = s.status := rfl
@[simp] theorem State.chain_srcBase (s : State) (d n w h t : Word) : (s.chain d n w h t).srcBase = s.dstBase := rfl
@[simp] theorem State.chain_srcLen (s : State) (d n w h t : Word) : (s.chain d n w h t).srcLen = s.outLen := rfl
@[simp] theorem State.chain_dstBase (s : State) (d n w h t : Word) : (s.chain d n w h t).dstBase = d := rfl
@[simp] theorem State.chain_dstLen (s : State) (d n w h t : Word) : (s.chain d n w h t).dstLen = n := rfl
@[simp] theorem State.chain_width (s : State) (d n w h t : Word) : (s.chain d n w h t).width = w := rfl
@[simp] theorem State.chain_height (s : State) (d n w h t : Word) : (s.chain d n w h t).height = h := rfl
@[simp] theorem State.chain_target (s : State) (d n w h t : Word) : (s.chain d n w h t).target = t := rfl
@[simp] theorem State.chain_index (s : State) (d n w h t : Word) : (s.chain d n w h t).index = s.index := rfl
@[simp] theorem State.chain_smp (s : State) (d n w h t : Word) : (s.chain d n w h t).smp = s.smp := rfl
@[simp] theorem State.chain_r (s : State) (d n w h t : Word) : (s.chain d n w h t).r = s.r := rfl
@[simp] theorem State.chain_g (s : State) (d n w h t : Word) : (s.chain d n w h t).g = s.g := rfl
@[simp] theorem State.chain_b (s : State) (d n w h t : Word) : (s.chain d n w h t).b = s.b := rfl
@[simp] theorem State.chain_y (s : State) (d n w h t : Word) : (s.chain d n w h t).y = s.y := rfl
@[simp] theorem State.chain_cb (s : State) (d n w h t : Word) : (s.chain d n w h t).cb = s.cb := rfl
@[simp] theorem State.chain_cr (s : State) (d n w h t : Word) : (s.chain d n w h t).cr = s.cr := rfl
@[simp] theorem State.chain_outLen (s : State) (d n w h t : Word) : (s.chain d n w h t).outLen = s.outLen := rfl
@[simp] theorem State.chain_mem (s : State) (d n w h t : Word) : (s.chain d n w h t).mem = s.mem := rfl
@[simp] theorem State.chain_aw (s : State) (d n w h t : Word) : (s.chain d n w h t).aw = s.aw := rfl
@[simp] theorem State.chain_pending (s : State) (d n w h t : Word) : (s.chain d n w h t).pending = s.pending := rfl
@[simp] theorem State.chain_reply (s : State) (d n w h t : Word) : (s.chain d n w h t).reply = s.reply := rfl

/-- Taking a fault is the STATUS update of 60_exceptions.md R230. -/
theorem raiseFault_eq_faulted (s : State) (k : FaultCode) : s.raiseFault k = faulted s k.code := rfl

/-- Completing without a warning. -/
theorem complete_eq_done (s : State) : s.complete false = done s := by
  simp [State.complete, Status.completed, done]

end Sys2Proof.Machine
end

