-- ==== Sys2Proof/Laws/Color.lean ====
section
/-! SUPPORT. The results of the integer colour form lie in their ranges and fit their registers
(43_colorimetry.md R215, R216). -/

namespace Sys2Proof.Machine

theorem clamp_range {v lo hi : Int} (h : lo ≤ hi) : lo ≤ clamp v lo hi ∧ clamp v lo hi ≤ hi := by
  simp only [clamp]; omega

theorem yccLuma_range (r g b : Int) : 64 ≤ yccLuma r g b ∧ yccLuma r g b ≤ 940 := clamp_range (by omega)

theorem yccChroma_range (m : Int) : 64 ≤ yccChroma m ∧ yccChroma m ≤ 960 := clamp_range (by omega)

/-- A 10-bit register holds an integer in [0, 1023] as it is. -/
theorem toNat_ofInt_sample {v : Int} (h0 : 0 ≤ v) (h1 : v < 1024) : ((BitVec.ofInt 10 v).toNat : Int) = v := by
  rw [BitVec.toNat_ofInt]; omega

theorem ycc_luma_toNat (r g b : Sample) : ((ycc r g b).1.toNat : Int) = yccLuma r.toNat g.toNat b.toNat := by
  have := yccLuma_range r.toNat g.toNat b.toNat
  exact toNat_ofInt_sample (by omega) (by omega)

theorem ycc_cb_toNat (r g b : Sample) : ((ycc r g b).2.1.toNat : Int) = yccChroma (cbSum r.toNat g.toNat b.toNat) := by
  have := yccChroma_range (cbSum r.toNat g.toNat b.toNat)
  exact toNat_ofInt_sample (by omega) (by omega)

theorem ycc_cr_toNat (r g b : Sample) : ((ycc r g b).2.2.toNat : Int) = yccChroma (crSum r.toNat g.toNat b.toNat) := by
  have := yccChroma_range (crSum r.toNat g.toNat b.toNat)
  exact toNat_ofInt_sample (by omega) (by omega)

end Sys2Proof.Machine
end

