-- ==== Sys2Proof/Laws/Decode.lean ====
section
/-! SUPPORT. The decoder: the fields of a word and back, and the agreement of the decoder (30_encoding.md R113) with the
legality of fields (R106). -/

namespace Sys2Proof

/-- A word is its fields (30_encoding.md R100). -/
theorem Command.toWord_ofWord (c : Word) : (Command.ofWord c).toWord = c := by
  apply BitVec.eq_of_getLsbD_eq
  intro i hi
  simp only [Command.toWord, Command.ofWord, BitVec.getLsbD_append, BitVec.getLsbD_extractLsb']
  interval_cases i <;> simp

/-- The fields of a word made of fields. -/
theorem Command.ofWord_toWord (f : Command) : Command.ofWord f.toWord = f := by
  obtain ⟨op, strict, fmt, zero⟩ := f
  simp only [Command.toWord, Command.ofWord, Command.mk.injEq]
  refine ⟨?_, ?_, ?_, ?_⟩ <;> apply BitVec.eq_of_getLsbD_eq <;> intro i hi <;>
    simp only [BitVec.getLsbD_append, BitVec.getLsbD_extractLsb'] <;>
    interval_cases i <;> simp

/-- The word of fields as a number (30_encoding.md R105). -/
theorem Command.toNat_toWord (f : Command) :
    f.toWord.toNat = f.op.toNat + 256 * f.strict.toNat + 512 * f.fmt.toNat + 2048 * f.zero.toNat := by
  obtain ⟨op, strict, fmt, zero⟩ := f
  have h1 := op.isLt; have h2 := strict.isLt; have h3 := fmt.isLt; have h4 := zero.isLt
  have key : ∀ {n m : Nat} (a : BitVec n) (b : BitVec m), (a ++ b).toNat = a.toNat * 2 ^ m + b.toNat := by
    intro n m a b
    rw [BitVec.toNat_append, Nat.shiftLeft_eq, Nat.mul_comm, Nat.two_pow_add_eq_or_of_lt b.isLt]
  simp only [Command.toWord, key]
  omega

/-- An opcode the decoder dispatches on is one of nine, and the layout of PAD_WIDTH and CROP_PAD_HEIGHT one of three. -/
theorem dispatchOp_command {op : BitVec 8} {strict : BitVec 1} {fmt : BitVec 2} {i : Instr}
    (hf : fmt ≠ 0 → op.toNat = 5 ∨ op.toNat = 6) (hs : strict = 1 → op.toNat < 7)
    (h : dispatchOp op.toNat (strict == 1) fmt.toNat = .ok i) : i.command = ⟨op, strict, fmt, 0⟩ := by
  have hst : ∀ b : BitVec 1, BitVec.ofBool (b == 1) = b := by decide
  have hop : ∀ n : Nat, n < 256 → op.toNat = n → op = BitVec.ofNat 8 n := by
    intro n hn hop; apply BitVec.eq_of_toNat_eq; rw [hop, BitVec.toNat_ofNat, Nat.mod_eq_of_lt (by simpa using hn)]
  have hfm : ∀ n : Nat, n < 4 → fmt.toNat = n → fmt = BitVec.ofNat 2 n := by
    intro n hn hop; apply BitVec.eq_of_toNat_eq; rw [hop, BitVec.toNat_ofNat, Nat.mod_eq_of_lt (by simpa using hn)]
  have hf0 : op.toNat ≠ 5 → op.toNat ≠ 6 → fmt = 0 := by
    intro h5 h6; by_contra hc; rcases hf hc with h | h <;> contradiction
  have hs0 : 7 ≤ op.toNat → strict = 0 := by
    intro h7
    have hc : strict ≠ 1 := fun hc => by have := hs hc; omega
    clear hs h hst
    revert strict; decide
  unfold dispatchOp at h
  split at h <;> simp only [reduceCtorEq, Except.ok.injEq] at h <;> subst h <;>
    simp only [Instr.command, Command.mk.injEq, hst, true_and, and_true]
  case h_1 h => exact ⟨(hop _ (by omega) h).symm, (hf0 (by omega) (by omega)).symm⟩
  case h_2 h => exact ⟨(hop _ (by omega) h).symm, (hf0 (by omega) (by omega)).symm⟩
  case h_3 h => exact ⟨(hop _ (by omega) h).symm, (hf0 (by omega) (by omega)).symm⟩
  case h_4 h => exact ⟨(hop _ (by omega) h).symm, (hf0 (by omega) (by omega)).symm⟩
  case h_5 h h' => exact ⟨(hop _ (by omega) h).symm, (hfm _ (by omega) h').symm⟩
  case h_6 h h' => exact ⟨(hop _ (by omega) h).symm, (hfm _ (by omega) h').symm⟩
  case h_7 h h' => exact ⟨(hop _ (by omega) h).symm, (hfm _ (by omega) h').symm⟩
  case h_8 h h' => exact ⟨(hop _ (by omega) h).symm, (hfm _ (by omega) h').symm⟩
  case h_9 h h' => exact ⟨(hop _ (by omega) h).symm, (hfm _ (by omega) h').symm⟩
  case h_10 h h' => exact ⟨(hop _ (by omega) h).symm, (hfm _ (by omega) h').symm⟩
  case h_13 h => exact ⟨(hop _ (by omega) h).symm, (hs0 (by omega)).symm, (hf0 (by omega) (by omega)).symm⟩
  case h_14 h => exact ⟨(hop _ (by omega) h).symm, (hs0 (by omega)).symm, (hf0 (by omega) (by omega)).symm⟩
  case h_15 h => exact ⟨(hop _ (by omega) h).symm, (hs0 (by omega)).symm, (hf0 (by omega) (by omega)).symm⟩

/-- Everything an accepted word says: its fields are those of the instruction it decodes to. -/
theorem command_of_decode {c : Word} {i : Instr} (h : decode c = .ok i) : i.command = Command.ofWord c := by
  unfold decode at h
  simp only at h
  split at h; · cases h
  rename_i h1
  split at h; · cases h
  split at h; · cases h
  split at h; · cases h
  rename_i h4
  split at h; · cases h
  rename_i h5
  rw [dispatchOp_command (fun hf => by by_contra hc; exact h4 ⟨hf, by omega, by omega⟩)
    (fun hs => by by_contra hc; exact h5 ⟨hs, by omega⟩) h]
  have hz : (Command.ofWord c).zero = 0 := by simpa using h1
  conv_rhs => rw [show Command.ofWord c = ⟨(Command.ofWord c).op, (Command.ofWord c).strict, (Command.ofWord c).fmt,
    (Command.ofWord c).zero⟩ from rfl, hz]

/-- The decoder reads back the word of each instruction. -/
theorem decode_toWord_command (i : Instr) : decode i.command.toWord = .ok i := by
  unfold decode
  simp only [Command.ofWord_toWord]
  cases i <;> first | rfl | (rename_i strict; cases strict <;> rfl)

/-- The fields of every instruction are legal. -/
theorem command_wellFormed (i : Instr) : i.command.wellFormed = true := by
  cases i <;> first | rfl | (rename_i strict; cases strict <;> rfl)

/-- The decoder accepts exactly the words whose fields are legal (30_encoding.md R106, R113). -/
theorem decode_accepts_iff_wellFormed (c : Word) :
    (∃ i, decode c = .ok i) ↔ (Command.ofWord c).wellFormed = true := by
  constructor
  · rintro ⟨i, h⟩; rw [← command_of_decode h]; exact command_wellFormed i
  · intro h
    generalize hf : Command.ofWord c = f at h
    obtain ⟨op, strict, fmt, zero⟩ := f
    simp only [Command.wellFormed, Command.zeroClear, Command.opAssigned, Command.fmtAssigned, Command.fmtApplies,
      Command.strictApplies, Bool.and_eq_true, Bool.or_eq_true, Bool.not_eq_true', beq_iff_eq, bne_iff_ne,
      decide_eq_true_eq] at h
    obtain ⟨⟨⟨⟨hz, ho⟩, hf3⟩, hfa⟩, hsa⟩ := h
    subst hz
    have hok : ∀ x : Except DecodeError Instr, x.isOk = true → ∃ i, x = .ok i := by
      intro x hx
      cases x with
      | ok i => exact ⟨i, rfl⟩
      | error e => cases hx
    apply hok
    unfold decode
    simp only [hf]
    obtain ⟨ho1, ho9⟩ := ho
    generalize hn : op.toNat = n at *
    have : op = BitVec.ofNat 8 n := by rw [← hn]; simp
    subst this
    clear hn hf
    interval_cases n <;> revert strict fmt <;> decide

end Sys2Proof
end

