-- ==== Sys2Proof/Laws/Memory.lean ====
section
/-! SUPPORT. What the memory operations do: reading after a write, little-endian values, the canonical form. -/

namespace Sys2Proof.Machine

/-! ## Reading one byte after a write -/

@[simp] theorem Memory.read_nil (a : Nat) : Memory.read [] a = Memory.default := rfl

theorem Memory.read_cons (k : Nat) (b : Byte) (m : Memory) (a : Nat) :
    Memory.read ((k, b) :: m) a = if k = a then b else Memory.read m a := rfl

/-- An address none of the entries carries reads as an unlisted address. -/
theorem Memory.read_absent {m : Memory} {a : Nat} (h : ∀ c ∈ m, c.1 ≠ a) : Memory.read m a = Memory.default := by
  induction m with
  | nil => rfl
  | cons c m ih =>
    obtain ⟨k, b⟩ := c
    simp only [List.mem_cons, forall_eq_or_imp] at h
    rw [Memory.read_cons, if_neg h.1, ih h.2]

/-- Entries that do not carry the address may stand before the others. -/
theorem Memory.read_append_absent {m n : Memory} {a : Nat} (h : ∀ c ∈ m, c.1 ≠ a) :
    Memory.read (m ++ n) a = Memory.read n a := by
  induction m with
  | nil => rfl
  | cons c m ih =>
    obtain ⟨k, b⟩ := c
    simp only [List.mem_cons, forall_eq_or_imp] at h
    rw [List.cons_append, Memory.read_cons, if_neg h.1, ih h.2]

/-- Entries that do not carry the address may stand after the others. -/
theorem Memory.read_append_of_absent {m n : Memory} {a : Nat} (h : ∀ c ∈ n, c.1 ≠ a) :
    Memory.read (m ++ n) a = Memory.read m a := by
  induction m with
  | nil => exact Memory.read_absent h
  | cons c m ih =>
    obtain ⟨k, b⟩ := c
    rw [List.cons_append, Memory.read_cons, Memory.read_cons, ih]

/-- Keeping every entry that carries the address keeps what it reads as. -/
theorem Memory.read_filter {m : Memory} {p : Host.Cell → Bool} {a : Nat} (h : ∀ b, p (a, b) = true) :
    Memory.read (m.filter p) a = Memory.read m a := by
  induction m with
  | nil => rfl
  | cons c m ih =>
    obtain ⟨k, b⟩ := c
    by_cases hk : k = a
    · subst hk; rw [List.filter_cons_of_pos (h b), Memory.read_cons, Memory.read_cons, if_pos rfl, if_pos rfl]
    · by_cases hp : p (k, b) = true
      · rw [List.filter_cons_of_pos hp, Memory.read_cons, Memory.read_cons, if_neg hk, if_neg hk, ih]
      · rw [List.filter_cons_of_neg hp, Memory.read_cons, if_neg hk, ih]

/-- The entries of a block lie inside it. -/
theorem blockCells_range {base : Nat} {bs : List Byte} {c : Host.Cell} (h : c ∈ blockCells base bs) :
    base ≤ c.1 ∧ c.1 < base + bs.length := by
  induction bs generalizing base with
  | nil => cases h
  | cons b bs ih =>
    simp only [blockCells] at h
    split at h
    · have := ih h; simp only [List.length_cons]; omega
    · rcases List.mem_cons.1 h with rfl | h
      · simp
      · have := ih h; simp only [List.length_cons]; omega

theorem blockCells_ne_default {base : Nat} {bs : List Byte} {c : Host.Cell} (h : c ∈ blockCells base bs) :
    c.2 ≠ Memory.default := by
  induction bs generalizing base with
  | nil => cases h
  | cons b bs ih =>
    simp only [blockCells] at h
    split at h
    · exact ih h
    · rename_i hb
      rcases List.mem_cons.1 h with rfl | h
      · exact hb
      · exact ih h

/-- A block's entries read as its bytes. -/
theorem Memory.read_blockCells {base : Nat} {bs : List Byte} {i : Nat} (h : i < bs.length) :
    Memory.read (blockCells base bs) (base + i) = bs[i] := by
  induction bs generalizing base i with
  | nil => cases h
  | cons b bs ih =>
    simp only [blockCells]
    cases i with
    | zero =>
      split
      · rename_i hb
        rw [Memory.read_absent]
        · exact hb.symm
        · intro c hc; have := blockCells_range hc; omega
      · simp [Memory.read_cons]
    | succ i =>
      have h' : i < bs.length := by simpa using h
      have e : base + (i + 1) = base + 1 + i := by omega
      split
      · rw [e, ih h']; rfl
      · rw [Memory.read_cons, if_neg (by omega), e, ih h']; rfl

/-- What one byte reads as after a block is written: the block's byte inside the block, the old byte outside. -/
theorem Memory.read_writeBlock (m : Memory) (base : Nat) (bs : List Byte) (a : Nat) :
    (m.writeBlock base bs).read a = if h : base ≤ a ∧ a < base + bs.length then bs[a - base]'(by omega) else m.read a := by
  unfold Memory.writeBlock
  by_cases h : base ≤ a ∧ a < base + bs.length
  · rw [dif_pos h, List.append_assoc, Memory.read_append_absent, Memory.read_append_of_absent]
    · have e : a = base + (a - base) := by omega
      conv_lhs => rw [e]
      exact Memory.read_blockCells (by omega)
    · intro c hc; simp only [List.mem_filter, decide_eq_true_eq] at hc; omega
    · intro c hc; simp only [List.mem_filter, decide_eq_true_eq] at hc; omega
  · rw [dif_neg h]
    by_cases hl : a < base
    · rw [Memory.read_append_of_absent, Memory.read_append_of_absent, Memory.read_filter]
      · simpa using hl
      · intro c hc; have := blockCells_range hc; omega
      · intro c hc; simp only [List.mem_filter, decide_eq_true_eq] at hc; omega
    · rw [Memory.read_append_absent, Memory.read_filter]
      · intro b; simp only [decide_eq_true_eq]; omega
      · intro c hc
        rcases List.mem_append.1 hc with hc | hc
        · simp only [List.mem_filter, decide_eq_true_eq] at hc; omega
        · have := blockCells_range hc; omega

/-- A write leaves every other place alone. -/
theorem Memory.read_writeBlock_outside {m : Memory} {base : Nat} {bs : List Byte} {a : Nat}
    (h : a < base ∨ base + bs.length ≤ a) : (m.writeBlock base bs).read a = m.read a := by
  rw [Memory.read_writeBlock, dif_neg (by omega)]

theorem Memory.read_writeBlock_inside {m : Memory} {base : Nat} {bs : List Byte} {i : Nat} (h : i < bs.length) :
    (m.writeBlock base bs).read (base + i) = bs[i] := by
  rw [Memory.read_writeBlock, dif_pos (by omega)]
  simp

/-! ## Little-endian values -/

@[simp] theorem leBytes_length (n v : Nat) : (leBytes n v).length = n := by
  induction n generalizing v with
  | zero => rfl
  | succ n ih => simp [leBytes, ih]

theorem Memory.readLE_lt (m : Memory) (a n : Nat) : m.readLE a n < 256 ^ n := by
  induction n generalizing a with
  | zero => simp [Memory.readLE]
  | succ n ih =>
    have h1 := ih (a + 1)
    have h2 := (m.read a).isLt
    simp only [Memory.readLE, Nat.pow_succ]
    omega

/-- A value depends on its own bytes only. -/
theorem Memory.readLE_congr {m m' : Memory} {a a' n : Nat} (h : ∀ i, i < n → m.read (a + i) = m'.read (a' + i)) :
    m.readLE a n = m'.readLE a' n := by
  induction n generalizing a a' with
  | zero => rfl
  | succ n ih =>
    have h0 := h 0 (by omega)
    simp only [Nat.add_zero] at h0
    simp only [Memory.readLE, h0]
    rw [ih (a := a + 1) (a' := a' + 1)]
    intro i hi
    have := h (i + 1) (by omega)
    rwa [show a + (i + 1) = a + 1 + i by omega, show a' + (i + 1) = a' + 1 + i by omega] at this

/-- Bytes laid out as the low n bytes of v read as v modulo 256^n. -/
theorem Memory.readLE_of_bytes {m : Memory} {a n v : Nat}
    (h : ∀ i (hi : i < n), m.read (a + i) = (leBytes n v)[i]'(by simpa using hi)) : m.readLE a n = v % 256 ^ n := by
  induction n generalizing a v with
  | zero => simp [Memory.readLE, Nat.mod_one]
  | succ n ih =>
    have h0 := h 0 (by omega)
    simp only [Nat.add_zero, leBytes, List.getElem_cons_zero] at h0
    rw [Memory.readLE, h0, ih (a := a + 1) (v := v / 256)]
    · rw [Nat.pow_succ, Nat.mul_comm (256 ^ n) 256, Nat.mod_mul, BitVec.toNat_ofNat]
    · intro i hi
      have := h (i + 1) (by omega)
      rw [show a + (i + 1) = a + 1 + i by omega] at this
      rw [this]; simp [leBytes]

/-- Read after write at the same address. -/
theorem Memory.readLE_writeLE (m : Memory) (a n v : Nat) : (m.writeLE a n v).readLE a n = v % 256 ^ n := by
  apply Memory.readLE_of_bytes
  intro i hi
  exact Memory.read_writeBlock_inside (by simpa using hi)

theorem Memory.read_writeLE_outside {m : Memory} {a n v x : Nat} (h : x < a ∨ a + n ≤ x) :
    (m.writeLE a n v).read x = m.read x :=
  Memory.read_writeBlock_outside (by simpa using h)

/-! ## The canonical form -/

theorem blockCells_pairwise (base : Nat) (bs : List Byte) :
    (blockCells base bs).Pairwise (fun c d => c.1 < d.1) := by
  induction bs generalizing base with
  | nil => exact List.Pairwise.nil
  | cons b bs ih =>
    simp only [blockCells]
    split
    · exact ih _
    · refine List.Pairwise.cons (fun c hc => ?_) (ih _)
      have := blockCells_range hc
      simp only; omega

theorem Memory.wf_nil : Memory.wf [] := ⟨List.Pairwise.nil, fun _ h => by cases h⟩

/-- Memory has the canonical form after reset. -/
theorem State.reset_mem_wf : State.reset.mem.wf := Memory.wf_nil

/-- Every write keeps the canonical form. -/
theorem Memory.wf_writeBlock {m : Memory} (h : m.wf) (base : Nat) (bs : List Byte) : (m.writeBlock base bs).wf := by
  refine ⟨?_, ?_⟩
  · unfold Memory.writeBlock
    rw [List.pairwise_append, List.pairwise_append]
    refine ⟨⟨h.1.sublist List.filter_sublist, blockCells_pairwise _ _, ?_⟩, h.1.sublist List.filter_sublist, ?_⟩
    · intro c hc d hd
      simp only [List.mem_filter, decide_eq_true_eq] at hc
      have := blockCells_range hd
      omega
    · intro c hc d hd
      simp only [List.mem_filter, decide_eq_true_eq] at hd
      rcases List.mem_append.1 hc with hc | hc
      · simp only [List.mem_filter, decide_eq_true_eq] at hc; omega
      · have := blockCells_range hc; omega
  · intro c hc
    unfold Memory.writeBlock at hc
    rcases List.mem_append.1 hc with hc | hc
    · rcases List.mem_append.1 hc with hc | hc
      · exact h.2 c (List.mem_filter.1 hc).1
      · exact blockCells_ne_default hc
    · exact h.2 c (List.mem_filter.1 hc).1

theorem Memory.wf_writeLE {m : Memory} (h : m.wf) (a n v : Nat) : (m.writeLE a n v).wf :=
  Memory.wf_writeBlock h _ _

/-- A write inside the address space lists no address outside it. -/
theorem Memory.inside_writeBlock {m : Memory} {aw base : Nat} {bs : List Byte} (h : m.inside aw)
    (hb : base + bs.length ≤ 2 ^ aw) : (m.writeBlock base bs).inside aw := by
  intro c hc
  unfold Memory.writeBlock at hc
  rcases List.mem_append.1 hc with hc | hc
  · rcases List.mem_append.1 hc with hc | hc
    · exact h c (List.mem_filter.1 hc).1
    · have := blockCells_range hc; omega
  · exact h c (List.mem_filter.1 hc).1

theorem Memory.inside_writeLE {m : Memory} {aw a n v : Nat} (h : m.inside aw) (hb : a + n ≤ 2 ^ aw) :
    (m.writeLE a n v).inside aw :=
  Memory.inside_writeBlock h (by simpa using hb)

end Sys2Proof.Machine
end

