-- ==== Sys2Proof/Laws/Layout.lean ====
section
/-! SUPPORT. The frame layouts: how many bytes a frame takes, which unit stands at which offset of 20_memory.md R71 to
R74, and what a frame's bytes read as once they are written. -/

namespace Sys2Proof.Machine

/-! ## Bytes made of units of one size -/

theorem units_length (u n : Nat) (f : Nat → Nat) :
    ((List.range n).flatMap fun q => leBytes u (f q)).length = n * u := by
  induction n with
  | zero => simp
  | succ n ih => rw [List.range_succ, List.flatMap_append, List.length_append, ih]; simp [Nat.succ_mul]

theorem units_get {u n : Nat} {f : Nat → Nat} {q i : Nat} (hq : q < n) (hi : i < u)
    (h : u * q + i < ((List.range n).flatMap fun q => leBytes u (f q)).length) :
    ((List.range n).flatMap fun q => leBytes u (f q))[u * q + i] = (leBytes u (f q))[i]'(by simpa using hi) := by
  induction n with
  | zero => cases hq
  | succ n ih =>
    have hl := units_length u n f
    rw [List.getElem_of_eq (by rw [List.range_succ, List.flatMap_append])]
    by_cases hqn : q < n
    · have : u * q + i < ((List.range n).flatMap fun q => leBytes u (f q)).length := by
        rw [hl]
        have : (q + 1) * u ≤ n * u := Nat.mul_le_mul_right u hqn
        rw [Nat.succ_mul, Nat.mul_comm q u] at this
        omega
      rw [List.getElem_append_left this, ih hqn]
    · obtain rfl : q = n := by omega
      have e : ((List.range q).flatMap fun q => leBytes u (f q)).length = u * q := by rw [hl, Nat.mul_comm]
      rw [List.getElem_append_right (by omega)]
      simp [e]

/-- The number of v210 lines' words: a line is a whole number of them. -/
theorem lineBytes_eq (w : Nat) : lineBytes w = 128 * ceilDiv w 48 := Nat.mul_comm _ _

/-- A frame is a whole number of its layout's units. -/
theorem frameBytes_units (fmt : Layout) (w h : Nat) :
    frameBytes fmt w h / unitBytes fmt * unitBytes fmt = frameBytes fmt w h := by
  cases fmt with
  | v210 =>
    simp only [frameBytes, unitBytes, lineBytes_eq]
    rw [show 128 * ceilDiv w 48 * h = 4 * (32 * (ceilDiv w 48 * h)) by ring]; omega
  | planar =>
    simp only [frameBytes, unitBytes]
    rw [show 4 * w * h = 2 * (2 * (w * h)) by ring]; omega
  | yuyv =>
    simp only [frameBytes, unitBytes]
    rw [show 4 * w * h = 2 * (2 * (w * h)) by ring]; omega

/-- `Encode` writes exactly `Bytes(fmt, w, h)` bytes (20_memory.md R79). -/
@[simp] theorem encodeFrame_length (fmt : Layout) (F : Frame) (w h : Nat) :
    (encodeFrame fmt F w h).length = frameBytes fmt w h := by
  rw [encodeFrame, units_length, frameBytes_units]

/-! ## Units -/

theorem v210Word_lt (a b c : Sample) : v210Word a b c < 2 ^ 30 := by
  have := a.isLt; have := b.isLt; have := c.isLt
  simp only [v210Word]; omega

theorem planarUnit_lt (F : Frame) (w h q : Nat) : planarUnit F w h q < 1024 := by
  simp only [planarUnit]
  split
  · exact (F .y _ _).isLt
  · split
    · exact (F .cb _ _).isLt
    · exact (F .cr _ _).isLt

theorem yuyvUnit_lt (F : Frame) (w q : Nat) : yuyvUnit F w q < 1024 := by
  simp only [yuyvUnit]
  split
  · exact (F .y _ _).isLt
  · exact (F .cb _ _).isLt
  · exact (F .y _ _).isLt
  · exact (F .cr _ _).isLt

theorem frameUnit_lt (fmt : Layout) (F : Frame) (w h q : Nat) : frameUnit fmt F w h q < 256 ^ unitBytes fmt := by
  cases fmt with
  | v210 => exact lt_trans (v210Word_lt _ _ _) (by decide)
  | planar => exact lt_trans (planarUnit_lt _ _ _ _) (by decide)
  | yuyv => exact lt_trans (yuyvUnit_lt _ _ _) (by decide)

/-- A frame's unit reads as itself wherever the frame's bytes stand. -/
theorem readLE_frameUnit {fmt : Layout} {F : Frame} {w h q : Nat} {m : Memory} {base : Nat}
    (hq : q < frameBytes fmt w h / unitBytes fmt)
    (hm : ∀ i (hi : i < (encodeFrame fmt F w h).length), m.read (base + i) = (encodeFrame fmt F w h)[i]) :
    m.readLE (base + unitBytes fmt * q) (unitBytes fmt) = frameUnit fmt F w h q := by
  rw [Memory.readLE_of_bytes (v := frameUnit fmt F w h q), Nat.mod_eq_of_lt (frameUnit_lt _ _ _ _ _)]
  intro i hi
  have hb : unitBytes fmt * q + i < (encodeFrame fmt F w h).length := by
    rw [encodeFrame, units_length]
    have : (q + 1) * unitBytes fmt ≤ frameBytes fmt w h / unitBytes fmt * unitBytes fmt := Nat.mul_le_mul_right _ hq
    rw [Nat.succ_mul, Nat.mul_comm q] at this
    omega
  rw [Nat.add_assoc, hm _ hb]
  exact units_get hq hi hb

/-- After a frame's bytes are written from base up, they read as the frame's bytes. -/
theorem read_encoded (m : Memory) (base : Nat) (fmt : Layout) (F : Frame) (w h i : Nat)
    (hi : i < (encodeFrame fmt F w h).length) :
    (m.writeBlock base (encodeFrame fmt F w h)).read (base + i) = (encodeFrame fmt F w h)[i] :=
  Memory.read_writeBlock_inside hi

/-! ## Positions in a grid of rows -/

theorem grid_div {r n x : Nat} (hx : x < n) : (r * n + x) / n = r := by
  rw [Nat.add_comm, Nat.add_mul_div_right _ _ (by omega), Nat.div_eq_of_lt hx, Nat.zero_add]

theorem grid_mod {r n x : Nat} (hx : x < n) : (r * n + x) % n = x := by
  rw [Nat.add_comm, Nat.add_mul_mod_self_right, Nat.mod_eq_of_lt hx]

theorem grid_lt {r n x h : Nat} (hr : r < h) (hx : x < n) : r * n + x < n * h := by
  have : (r + 1) * n ≤ h * n := Nat.mul_le_mul_right n hr
  rw [Nat.succ_mul] at this
  rw [Nat.mul_comm n h]; omega

/-! ## Units at the offsets of the layouts -/

theorem planarUnit_y {F : Frame} {w h r x : Nat} (hr : r < h) (hx : x < w) :
    planarUnit F w h (r * w + x) = (F .y r x).toNat := by
  simp only [planarUnit, if_pos (grid_lt hr hx), grid_div hx, grid_mod hx]

theorem planarUnit_cb {F : Frame} {w h r j : Nat} (hr : r < h) (hj : j < w / 2) :
    planarUnit F w h (w * h + (r * (w / 2) + j)) = (F .cb r j).toNat := by
  have := grid_lt hr hj
  simp only [planarUnit, if_neg (show ¬ w * h + (r * (w / 2) + j) < w * h by omega), Nat.add_sub_cancel_left,
    if_pos this, grid_div hj, grid_mod hj]

theorem planarUnit_cr {F : Frame} {w h r j : Nat} (hj : j < w / 2) :
    planarUnit F w h (w * h + (w / 2 * h + (r * (w / 2) + j))) = (F .cr r j).toNat := by
  simp only [planarUnit, if_neg (show ¬ w * h + (w / 2 * h + (r * (w / 2) + j)) < w * h by omega),
    Nat.add_sub_cancel_left, if_neg (show ¬ w / 2 * h + (r * (w / 2) + j) < w / 2 * h by omega), grid_div hj,
    grid_mod hj]

theorem yuyvUnit_at {F : Frame} {w r j p : Nat} (hj : j < w / 2) (hp : p < 4) :
    yuyvUnit F w (4 * (r * (w / 2) + j) + p) =
      (match p with
       | 0 => F .y r (2 * j)
       | 1 => F .cb r j
       | 2 => F .y r (2 * j + 1)
       | _ => F .cr r j).toNat := by
  have e : (4 * (r * (w / 2) + j) + p) / 4 = r * (w / 2) + j := by omega
  have e' : (4 * (r * (w / 2) + j) + p) % 4 = p := by omega
  simp only [yuyvUnit, e, e', grid_div hj, grid_mod hj]
  rcases p with _ | _ | _ | p <;> rfl

theorem v210Unit_at {F : Frame} {w r g k : Nat} (hg : g < 8 * ceilDiv w 48) (hk : k < 4) :
    v210Unit F w (r * (32 * ceilDiv w 48) + (4 * g + k)) =
      v210Word (slotValue F w r g k 0) (slotValue F w r g k 1) (slotValue F w r g k 2) := by
  have hl : lineBytes w / 4 = 32 * ceilDiv w 48 := by rw [lineBytes_eq]; omega
  have hx : 4 * g + k < 32 * ceilDiv w 48 := by omega
  simp only [v210Unit, hl, grid_div hx, grid_mod hx, show (4 * g + k) / 4 = g by omega,
    show (4 * g + k) % 4 = k by omega]

/-! ## A frame's bytes read back, sample by sample -/

/-- The containers of a planar frame stand at the offsets of 20_memory.md R71. -/
theorem readLE_planar {F : Frame} {w h r x : Nat} {m : Memory} {base : Nat} {c : Comp} (hw : w % 2 = 0) (hr : r < h)
    (hx : x < compWidth c w)
    (hm : ∀ i (hi : i < (encodeFrame .planar F w h).length), m.read (base + i) = (encodeFrame .planar F w h)[i]) :
    m.readLE (base + offPlanar c w h r x) 2 = (F c r x).toNat := by
  have hn : frameBytes .planar w h / unitBytes .planar = 2 * (w * h) := by
    simp only [frameBytes, unitBytes]; rw [show 4 * w * h = 2 * (2 * (w * h)) by ring]; omega
  have hch : 2 * (w / 2 * h) = w * h := by rw [← Nat.mul_assoc]; congr 1; omega
  have key : ∀ q, q < 2 * (w * h) → m.readLE (base + 2 * q) 2 = planarUnit F w h q := fun q hq =>
    readLE_frameUnit (fmt := .planar) (hn ▸ hq) hm
  cases c with
  | y =>
    simp only [compWidth] at hx
    have hg := grid_lt hr hx
    rw [← planarUnit_y hr hx, ← key _ (by omega)]; rfl
  | cb =>
    have hg := grid_lt hr hx
    simp only [compWidth] at hx hg
    rw [← planarUnit_cb hr hx, ← key _ (by omega)]
    congr 1; simp only [offPlanar]; ring
  | cr =>
    have hg := grid_lt hr hx
    simp only [compWidth] at hx hg
    rw [← planarUnit_cr hx, ← key _ (by omega)]
    congr 1; simp only [offPlanar]
    rw [show 3 * w * h = 2 * (w * h) + w * h by ring, ← hch]; ring

/-- The containers of a YUYV frame stand at the offsets of 20_memory.md R72. -/
theorem readLE_yuyv {F : Frame} {w h r x : Nat} {m : Memory} {base : Nat} {c : Comp} (hw : w % 2 = 0) (hr : r < h)
    (hx : x < compWidth c w)
    (hm : ∀ i (hi : i < (encodeFrame .yuyv F w h).length), m.read (base + i) = (encodeFrame .yuyv F w h)[i]) :
    m.readLE (base + offYuyv c w r x) 2 = (F c r x).toNat := by
  have hn : frameBytes .yuyv w h / unitBytes .yuyv = 4 * (w / 2 * h) := by
    have hch : 2 * (w / 2 * h) = w * h := by rw [← Nat.mul_assoc]; congr 1; omega
    simp only [frameBytes, unitBytes]; rw [show 4 * w * h = 4 * (w * h) by ring]; omega
  have key : ∀ q, q < 4 * (w / 2 * h) → m.readLE (base + 2 * q) 2 = yuyvUnit F w q := fun q hq =>
    readLE_frameUnit (fmt := .yuyv) (hn ▸ hq) hm
  cases c with
  | y =>
    simp only [compWidth] at hx
    have hj : x / 2 < w / 2 := by omega
    have hg := grid_lt hr hj
    have hp : 2 * (x % 2) < 4 := by omega
    have := yuyvUnit_at (F := F) (r := r) hj hp
    rw [← key _ (by omega)] at this
    rw [show base + offYuyv .y w r x = base + 2 * (4 * (r * (w / 2) + x / 2) + 2 * (x % 2)) by
      simp only [offYuyv, offPair]; ring, this]
    rcases Nat.mod_two_eq_zero_or_one x with h2 | h2 <;> simp only [h2]
    · rw [show 2 * (x / 2) = x by omega]
    · rw [show 2 * (x / 2) + 1 = x by omega]
  | cb =>
    simp only [compWidth] at hx
    have hg := grid_lt hr hx
    have := yuyvUnit_at (F := F) (r := r) (p := 1) hx (by omega)
    rw [← key _ (by omega)] at this
    refine Eq.trans ?_ this
    congr 1; simp only [offYuyv, offPair]; ring
  | cr =>
    simp only [compWidth] at hx
    have hg := grid_lt hr hx
    have := yuyvUnit_at (F := F) (r := r) (p := 3) hx (by omega)
    rw [← key _ (by omega)] at this
    refine Eq.trans ?_ this
    congr 1; simp only [offYuyv, offPair]; ring

/-- The words of a v210 frame stand at the offsets of 20_memory.md R73 and carry the slots of R74 and R75. -/
theorem readLE_v210 {F : Frame} {w h r g k : Nat} {m : Memory} {base : Nat} (hr : r < h) (hg : g < 8 * ceilDiv w 48)
    (hk : k < 4)
    (hm : ∀ i (hi : i < (encodeFrame .v210 F w h).length), m.read (base + i) = (encodeFrame .v210 F w h)[i]) :
    m.readLE (base + offV210 w r g k) 4 =
      v210Word (slotValue F w r g k 0) (slotValue F w r g k 1) (slotValue F w r g k 2) := by
  have hx : 4 * g + k < 32 * ceilDiv w 48 := by omega
  have hq := grid_lt hr hx
  have hn : frameBytes .v210 w h / unitBytes .v210 = 32 * ceilDiv w 48 * h := by
    simp only [frameBytes, unitBytes, lineBytes_eq]
    rw [show 128 * ceilDiv w 48 * h = 4 * (32 * ceilDiv w 48 * h) by ring]; omega
  rw [← v210Unit_at (F := F) (r := r) hg hk]
  refine Eq.trans ?_ (readLE_frameUnit (fmt := .v210) (hn ▸ hq) hm)
  simp only [offV210, lineBytes_eq, unitBytes]
  congr 1; ring

/-! ## v210 words and slots -/

/-- A v210 word's fields are the samples it was made of (20_memory.md R63). -/
theorem v210Field_v210Word (a b c : Sample) :
    v210Field (v210Word a b c) 0 = a ∧ v210Field (v210Word a b c) 1 = b ∧ v210Field (v210Word a b c) 2 = c := by
  have ha := a.isLt; have hb := b.isLt; have hc := c.isLt
  refine ⟨?_, ?_, ?_⟩ <;> apply BitVec.eq_of_toNat_eq <;>
    simp only [v210Field, v210Word, BitVec.toNat_ofNat, Nat.reducePow] <;> omega

theorem perGroup_pos (c : Comp) : 0 < perGroup c := by cases c <;> decide

theorem sampleSlot_lt (c : Comp) {i : Nat} (hi : i < perGroup c) : (sampleSlot c i).1 < 4 ∧ (sampleSlot c i).2 < 3 := by
  cases c <;> simp only [perGroup] at hi <;> interval_cases i <;> decide

/-- The two readings of the table of 20_memory.md R74 agree. -/
theorem slotSample_sampleSlot (c : Comp) {i : Nat} (hi : i < perGroup c) :
    slotSample (sampleSlot c i).1 (sampleSlot c i).2 = (c, i) := by
  cases c <;> simp only [perGroup] at hi <;> interval_cases i <;> rfl

/-- The slot of a sample inside the frame carries it. -/
theorem slotValue_sample {F : Frame} {w r x : Nat} {c : Comp} (hx : x < compWidth c w) :
    slotValue F w r (x / perGroup c) (sampleSlot c (x % perGroup c)).1 (sampleSlot c (x % perGroup c)).2 = F c r x := by
  have hi := Nat.mod_lt x (perGroup_pos c)
  simp only [slotValue, slotSample_sampleSlot c hi, Nat.div_add_mod, if_pos hx]

/-- The group of a sample inside the frame is a group of the line. -/
theorem group_lt {w x : Nat} {c : Comp} (hx : x < compWidth c w) : x / perGroup c < 8 * ceilDiv w 48 := by
  cases c <;> simp only [compWidth, perGroup, ceilDiv] at * <;> omega

/-- A v210 word's field, whichever it is. -/
theorem v210Field_slots {F : Frame} {w r g k f : Nat} (hf : f < 3) :
    v210Field (v210Word (slotValue F w r g k 0) (slotValue F w r g k 1) (slotValue F w r g k 2)) f =
      slotValue F w r g k f := by
  obtain ⟨h0, h1, h2⟩ := v210Field_v210Word (slotValue F w r g k 0) (slotValue F w r g k 1) (slotValue F w r g k 2)
  interval_cases f
  · exact h0
  · exact h1
  · exact h2

/-! ## Sizes -/

theorem offPlanar_lt {c : Comp} {w h r x : Nat} (hw : w % 2 = 0) (hr : r < h) (hx : x < compWidth c w) :
    offPlanar c w h r x + 2 ≤ frameBytes .planar w h := by
  have hg := grid_lt hr hx
  have hch : 2 * (w / 2 * h) = w * h := by rw [← Nat.mul_assoc]; congr 1; omega
  cases c <;> simp only [offPlanar, compWidth, frameBytes] at * <;> nlinarith

theorem offYuyv_lt {c : Comp} {w h r x : Nat} (hw : w % 2 = 0) (hr : r < h) (hx : x < compWidth c w) :
    offYuyv c w r x + 2 ≤ frameBytes .yuyv w h := by
  have hch : 2 * (w / 2 * h) = w * h := by rw [← Nat.mul_assoc]; congr 1; omega
  have e : frameBytes .yuyv w h = 8 * (w / 2 * h) := by
    simp only [frameBytes]; rw [show 4 * w * h = 4 * (w * h) by ring, ← hch]; ring
  rw [e]
  cases c with
  | y =>
    have hj : x / 2 < w / 2 := by simp only [compWidth] at hx; omega
    have hg := grid_lt hr hj
    simp only [offYuyv, offPair]; omega
  | cb => have hg := grid_lt hr hx; simp only [offYuyv, offPair, compWidth] at *; omega
  | cr => have hg := grid_lt hr hx; simp only [offYuyv, offPair, compWidth] at *; omega

theorem offV210_lt {w h r g k : Nat} (hr : r < h) (hg : g < 8 * ceilDiv w 48) (hk : k < 4) :
    offV210 w r g k + 4 ≤ frameBytes .v210 w h := by
  have hx : 4 * g + k < 32 * ceilDiv w 48 := by omega
  have hq := grid_lt hr hx
  simp only [offV210, frameBytes, lineBytes_eq]
  nlinarith

end Sys2Proof.Machine
end

