-- ==== Sys2Proof/Laws/FrameCommand.lean ====
section
/-! SUPPORT. What a frame command can do, said once (41_format_conversion.md R150), and the form each of the ten frame
commands has. -/

namespace Sys2Proof.Machine

/-- The model's size function is the spec's (20_memory.md R70). -/
theorem frameBytes_eq_bytesOf (fmt : Layout) (w h : Nat) : frameBytes fmt w h = bytesOf fmt w h := by
  cases fmt <;> rfl

theorem regionWellFormed_iff (aw : Nat) (base len : Word) :
    regionWellFormed aw base len = true ↔ base.toNat + len.toNat ≤ 2 ^ aw := by
  simp [regionWellFormed]

theorem regionsOverlap_iff (s : State) :
    regionsOverlap s.srcBase s.srcLen s.dstBase s.dstLen = false ↔ RegionsDisjoint s := by
  rw [← Bool.not_eq_true]
  simp only [regionsOverlap, Bool.and_eq_true, decide_eq_true_eq, RegionsDisjoint]
  omega

/-- The conditions of the shared body in terms of a transform. -/
def specOf (fin fout : Layout) (T : Transform) (strict : Bool) (s : State) : FrameSpec :=
  let out := T.geometry s.width.toNat s.height.toNat s.target.toNat
  ⟨frameBytes fin s.width.toNat s.height.toNat, frameBytes fout out.1 out.2,
   T.check s.width.toNat s.height.toNat s.target.toNat = true, strict⟩

/-- The checks of a frame command pass exactly where the conditions of R150 hold. -/
theorem frameFault_none_iff (fin fout : Layout) (T : Transform) (strict : Bool) (s : State) :
    frameFault fin fout T strict s = none ↔ FrameReady s (specOf fin fout T strict s) := by
  have hov := regionsOverlap_iff s
  have hsrc := regionWellFormed_iff s.aw s.srcBase s.srcLen
  have hdst := regionWellFormed_iff s.aw s.dstBase s.dstLen
  simp only [frameFault]
  constructor
  · intro h
    split at h; · cases h
    rename_i h1
    split at h; · cases h
    rename_i h2
    split at h; · cases h
    rename_i h3
    split at h; · cases h
    rename_i h4
    split at h; · cases h
    rename_i h5
    split at h; · cases h
    rename_i h6
    simp only [not_or, Bool.not_eq_false, Bool.not_eq_true] at h1 h2 h3 h4
    refine ⟨⟨h1.1, h1.2.1, by omega, h2⟩, hsrc.1 h3.1, hdst.1 h3.2, hov.1 h4, ?_, ?_⟩
    · simp only [specOf]; omega
    · intro hs
      simp only [specOf] at hs ⊢
      by_contra hc
      exact h6 ⟨by simp only [State.short, decide_eq_true_eq]; omega, hs⟩
  · rintro ⟨⟨hw, hh, he, hT⟩, hs, hd, hdj, hf, hl⟩
    simp only [specOf] at hT hf hl
    rw [if_neg (by omega), if_neg (by simp [hT]), if_neg (by simp [hsrc.2 hs, hdst.2 hd]), if_neg (by simp [hov.2 hdj]),
      if_neg (by omega), if_neg]
    rintro ⟨hsh, hst⟩
    have := hl hst
    simp only [State.short, decide_eq_true_eq] at hsh
    omega

/-- Which fault a frame command takes: the first failing check, in the order of R150. -/
theorem frameFault_some {fin fout : Layout} {T : Transform} {strict : Bool} {s : State} {k : FaultCode}
    (h : frameFault fin fout T strict s = some k) :
    let f := specOf fin fout T strict s
    (k = .invalidGeometry ∧ ¬ GeometryOk s f) ∨
    (k = .regionError ∧ GeometryOk s f ∧ ¬ (SourceInside s ∧ DestInside s)) ∨
    (k = .overlapError ∧ GeometryOk s f ∧ SourceInside s ∧ DestInside s ∧ ¬ RegionsDisjoint s) ∨
    (k = .dstOverflow ∧ GeometryOk s f ∧ SourceInside s ∧ DestInside s ∧ RegionsDisjoint s ∧
      s.dstLen.toNat < f.needOut) ∨
    (k = .shortRead ∧ GeometryOk s f ∧ SourceInside s ∧ DestInside s ∧ RegionsDisjoint s ∧
      f.needOut ≤ s.dstLen.toNat ∧ f.strict = true ∧ s.srcLen.toNat < f.needIn) := by
  have hov := regionsOverlap_iff s
  have hsrc := regionWellFormed_iff s.aw s.srcBase s.srcLen
  have hdst := regionWellFormed_iff s.aw s.dstBase s.dstLen
  simp only [frameFault] at h
  simp only [specOf, GeometryOk]
  split at h
  · cases h; left; exact ⟨rfl, by omega⟩
  rename_i h1
  split at h
  · rename_i h2; cases h; left; exact ⟨rfl, by simp [h2]⟩
  rename_i h2
  rw [Bool.not_eq_false] at h2
  have hg : s.width.toNat ≠ 0 ∧ s.height.toNat ≠ 0 ∧ s.width.toNat % 2 = 0 ∧
      T.check s.width.toNat s.height.toNat s.target.toNat = true := ⟨by omega, by omega, by omega, h2⟩
  split at h
  · rename_i h3; cases h; right; left
    refine ⟨rfl, hg, fun hc => ?_⟩
    rcases h3 with h3 | h3
    · rw [hsrc.2 hc.1] at h3; cases h3
    · rw [hdst.2 hc.2] at h3; cases h3
  rename_i h3
  simp only [not_or, Bool.not_eq_false] at h3
  have hs := hsrc.1 h3.1
  have hd := hdst.1 h3.2
  split at h
  · rename_i h4; cases h; right; right; left
    refine ⟨rfl, hg, hs, hd, fun hc => ?_⟩
    rw [hov.2 hc] at h4; cases h4
  rename_i h4
  have hdj := hov.1 (by simpa using h4)
  split at h
  · rename_i h5; cases h; right; right; right; left
    exact ⟨rfl, hg, hs, hd, hdj, h5⟩
  rename_i h5
  split at h
  · rename_i h6; cases h; right; right; right; right
    refine ⟨rfl, hg, hs, hd, hdj, by omega, h6.2, ?_⟩
    have := h6.1
    simpa [State.short] using this
  · cases h

/-- The commit part changes OUT_LEN, STATUS and memory, as R150 says. -/
theorem frameCommit_eq (fin fout : Layout) (T : Transform) (s : State) :
    frameCommit fin fout T s =
      { s with
        mem := (frameCommit fin fout T s).mem
        outLen := BitVec.ofNat 32 (specOf fin fout T false s).needOut
        status :=
          { err := 0
            warn := decide (s.srcLen.toNat < (specOf fin fout T false s).needIn)
            warns := s.status.warns || decide (s.srcLen.toNat < (specOf fin fout T false s).needIn)
            faulted := s.status.faulted } } := rfl

/-- The frame a command writes. -/
def frameOut (fin : Layout) (T : Transform) (s : State) : Frame :=
  T.apply s.width.toNat s.height.toNat s.target.toNat (decodeFrame fin s s.width.toNat s.height.toNat)

theorem frameCommit_mem (fin fout : Layout) (T : Transform) (s : State) :
    (frameCommit fin fout T s).mem =
      s.mem.writeBlock s.dstBase.toNat
        (encodeFrame fout (frameOut fin T s) (T.geometry s.width.toNat s.height.toNat s.target.toNat).1
          (T.geometry s.width.toNat s.height.toNat s.target.toNat).2) := rfl

/-- Outside the produced bytes memory reads as before. -/
theorem frameCommit_read_outside {fin fout : Layout} {T : Transform} {s : State} {a : Nat} (strict : Bool)
    (h : a < s.dstBase.toNat ∨ s.dstBase.toNat + (specOf fin fout T strict s).needOut ≤ a) :
    (frameCommit fin fout T s).mem.read a = s.mem.read a := by
  rw [frameCommit_mem]
  exact Memory.read_writeBlock_outside (by rw [encodeFrame_length]; exact h)

/-- The produced bytes are the encoding of the frame. -/
theorem frameCommit_read_inside (fin fout : Layout) (T : Transform) (s : State) (i : Nat)
    (h : i < (encodeFrame fout (frameOut fin T s) (T.geometry s.width.toNat s.height.toNat s.target.toNat).1
      (T.geometry s.width.toNat s.height.toNat s.target.toNat).2).length) :
    (frameCommit fin fout T s).mem.read (s.dstBase.toNat + i) =
      (encodeFrame fout (frameOut fin T s) (T.geometry s.width.toNat s.height.toNat s.target.toNat).1
        (T.geometry s.width.toNat s.height.toNat s.target.toNat).2)[i] := by
  rw [frameCommit_mem]
  exact Memory.read_writeBlock_inside h

/-- Everything a frame command can do: it takes a fault, or its conditions hold and it commits. -/
theorem frameCommand_cases (fin fout : Layout) (T : Transform) (strict : Bool) (s : State) :
    (∃ k, frameFault fin fout T strict s = some k ∧ frameCommand fin fout T strict s = s.raiseFault k) ∨
    (FrameReady s (specOf fin fout T strict s) ∧ frameCommand fin fout T strict s = frameCommit fin fout T s) := by
  cases h : frameFault fin fout T strict s with
  | some k => exact .inl ⟨k, rfl, by simp [frameCommand, h]⟩
  | none => exact .inr ⟨(frameFault_none_iff ..).1 h, by simp [frameCommand, h]⟩

theorem frameCommand_of_ready {fin fout : Layout} {T : Transform} {strict : Bool} {s : State}
    (h : FrameReady s (specOf fin fout T strict s)) :
    frameCommand fin fout T strict s = frameCommit fin fout T s := by
  simp [frameCommand, (frameFault_none_iff ..).2 h]

/-- A completed frame command has done what R150 and R156 say of registers and the bytes it does not write. -/
theorem frameCommit_done (fin fout : Layout) (T : Transform) (strict : Bool) (s : State) :
    FrameDone s (frameCommit fin fout T s) (specOf fin fout T strict s) :=
  ⟨frameCommit_eq fin fout T s, fun _ ha => frameCommit_read_outside strict ha⟩

/-- The three transforms of the command set. -/
inductive KnownTransform : Transform → Prop where
  | id : KnownTransform transformId
  | padW : KnownTransform transformPadW
  | cropH : KnownTransform transformCropH

/-- The form of each frame command: which layouts and which transform it passes to the shared body
(41_format_conversion.md R152 to R155, 42_geometry.md R190, R192). -/
def frameForm : Instr → Option (Layout × Layout × Transform × Bool)
  | .unpackV210 k => some (.v210, .planar, transformId, k)
  | .packV210 k => some (.planar, .v210, transformId, k)
  | .packYuyv k => some (.planar, .yuyv, transformId, k)
  | .unpackYuyv k => some (.yuyv, .planar, transformId, k)
  | .padWidthV210 k => some (.v210, .v210, transformPadW, k)
  | .padWidthPlanar k => some (.planar, .planar, transformPadW, k)
  | .padWidthYuyv k => some (.yuyv, .yuyv, transformPadW, k)
  | .cropPadHeightV210 k => some (.v210, .v210, transformCropH, k)
  | .cropPadHeightPlanar k => some (.planar, .planar, transformCropH, k)
  | .cropPadHeightYuyv k => some (.yuyv, .yuyv, transformCropH, k)
  | .rgb2ycc => none
  | .lds => none
  | .sts => none

theorem specOf_id (fin fout : Layout) (k : Bool) (s : State) :
    specOf fin fout transformId k s = convertSpec fin fout k s := by
  simp [specOf, convertSpec, transformId, frameBytes_eq_bytesOf]

theorem specOf_padW (fmt : Layout) (k : Bool) (s : State) : specOf fmt fmt transformPadW k s = padSpec fmt k s := by
  simp [specOf, padSpec, transformPadW, frameBytes_eq_bytesOf]

theorem specOf_cropH (fmt : Layout) (k : Bool) (s : State) : specOf fmt fmt transformCropH k s = cropSpec fmt k s := by
  simp [specOf, cropSpec, transformCropH, frameBytes_eq_bytesOf]

/-- One lemma for the ten frame commands: a command with a FrameSpec runs the shared body with that spec. -/
theorem exec_frame {i : Instr} {s : State} {f : FrameSpec} (h : frameSpec i s = some f) :
    ∃ fin fout T, KnownTransform T ∧ frameForm i = some (fin, fout, T, f.strict) ∧
      (∀ u, exec i u = .next (frameCommand fin fout T f.strict u)) ∧ specOf fin fout T f.strict s = f := by
  cases i <;> simp only [frameSpec, reduceCtorEq, Option.some.injEq] at h <;> subst h
  · exact ⟨_, _, _, .id, rfl, fun _ => rfl, specOf_id ..⟩
  · exact ⟨_, _, _, .id, rfl, fun _ => rfl, specOf_id ..⟩
  · exact ⟨_, _, _, .id, rfl, fun _ => rfl, specOf_id ..⟩
  · exact ⟨_, _, _, .id, rfl, fun _ => rfl, specOf_id ..⟩
  · exact ⟨_, _, _, .padW, rfl, fun _ => rfl, specOf_padW ..⟩
  · exact ⟨_, _, _, .padW, rfl, fun _ => rfl, specOf_padW ..⟩
  · exact ⟨_, _, _, .padW, rfl, fun _ => rfl, specOf_padW ..⟩
  · exact ⟨_, _, _, .cropH, rfl, fun _ => rfl, specOf_cropH ..⟩
  · exact ⟨_, _, _, .cropH, rfl, fun _ => rfl, specOf_cropH ..⟩
  · exact ⟨_, _, _, .cropH, rfl, fun _ => rfl, specOf_cropH ..⟩

/-- Every command answers a next state (60_exceptions.md R230: the engine is not halted). -/
theorem exec_answers_next (i : Instr) (s : State) : ∃ t, exec i s = .next t := by cases i <;> exact ⟨_, rfl⟩

/-- A frame's geometry under a known transform stays a frame's: even width, at least one pixel pair and one line. -/
theorem KnownTransform.geometry_even {T : Transform} (hT : KnownTransform T) {w h t : Nat} (hw : w % 2 = 0)
    (hc : T.check w h t = true) : (T.geometry w h t).1 % 2 = 0 := by
  cases hT <;> simp_all [transformId, transformPadW, transformCropH]

end Sys2Proof.Machine
end

