-- ==== Sys2Proof/Laws/Frames.lean ====
section
/-! SUPPORT. Frames that agree inside w × h: Decode of sources that agree gives them, the transforms keep them, and
Encode writes the same bytes for them (20_memory.md R78, R79). -/

namespace Sys2Proof.Machine

/-- Two frames that agree inside w × h; what they hold outside it is no sample of the frame (00_scope.md R12). -/
def SameFrame (w h : Nat) (F G : Frame) : Prop := ∀ c r x, r < h → x < compWidth c w → F c r x = G c r x

theorem SameFrame.trans {w h : Nat} {F G H : Frame} (a : SameFrame w h F G) (b : SameFrame w h G H) :
    SameFrame w h F H := fun c r x hr hx => (a c r x hr hx).trans (b c r x hr hx)

/-! ## Decode -/

/-- Source bytes that agree below n give the same span, present or absent. -/
theorem source_congr {s u : State} {n off k : Nat} (hl : s.srcLen = u.srcLen) (hk : off + k ≤ n)
    (hb : ∀ j, j < n → j < s.srcLen.toNat → s.mem.read (s.srcBase.toNat + j) = u.mem.read (u.srcBase.toNat + j)) :
    s.source off k = u.source off k := by
  simp only [State.source, hl]
  split
  · congr 1
    apply Memory.readLE_congr
    intro i hi
    simpa [Nat.add_assoc] using hb (off + i) (by omega) (by rw [hl]; omega)
  · rfl

/-- Decode depends on SRC_LEN and the source bytes below `frameBytes` alone. -/
theorem decodeFrame_congr {fmt : Layout} {s u : State} {w h : Nat} (hw : w % 2 = 0) (hl : s.srcLen = u.srcLen)
    (hb : ∀ j, j < frameBytes fmt w h → j < s.srcLen.toNat →
      s.mem.read (s.srcBase.toNat + j) = u.mem.read (u.srcBase.toNat + j)) :
    SameFrame w h (decodeFrame fmt s w h) (decodeFrame fmt u w h) := by
  intro c r x hr hx
  cases fmt with
  | planar => simp only [decodeFrame, State.sampleC16, source_congr hl (offPlanar_lt hw hr hx) hb]
  | yuyv => simp only [decodeFrame, State.sampleC16, source_congr hl (offYuyv_lt hw hr hx) hb]
  | v210 =>
    have := offV210_lt (w := w) hr (group_lt hx) (sampleSlot_lt c (Nat.mod_lt x (perGroup_pos c))).1
    simp only [decodeFrame, State.sampleW32, source_congr hl this hb]

/-! ## Transforms -/

/-- The transforms keep agreement, from the source geometry to the output geometry. -/
theorem KnownTransform.apply_congr {T : Transform} (hT : KnownTransform T) {w h t : Nat} {F G : Frame}
    (hFG : SameFrame w h F G) :
    SameFrame (T.geometry w h t).1 (T.geometry w h t).2 (T.apply w h t F) (T.apply w h t G) := by
  cases hT with
  | id => exact hFG
  | padW =>
    intro c r x hr _
    simp only [transformPadW] at *
    split
    · rfl
    · exact hFG _ _ _ hr (by omega)
  | cropH =>
    intro c r x _ hx
    simp only [transformCropH] at *
    split
    · rename_i h; exact hFG _ _ _ h hx
    · rfl

/-- The output of a known transform whose check passes is not empty in width. -/
theorem KnownTransform.geometry_pos {T : Transform} (hT : KnownTransform T) {w h t : Nat} (hw : 0 < w)
    (hc : T.check w h t = true) : 0 < (T.geometry w h t).1 := by
  cases hT <;> simp_all [transformId, transformPadW, transformCropH]
  omega

/-! ## Encode -/

theorem slotValue_congr {w h r g k f : Nat} {F G : Frame} (hFG : SameFrame w h F G) (hr : r < h) :
    slotValue F w r g k f = slotValue G w r g k f := by
  simp only [slotValue]
  split
  · rename_i hx; exact hFG _ _ _ hr hx
  · rfl

theorem frameUnit_congr {fmt : Layout} {w h q : Nat} {F G : Frame} (hw : w % 2 = 0) (hw0 : 0 < w)
    (hq : q < frameBytes fmt w h / unitBytes fmt) (hFG : SameFrame w h F G) :
    frameUnit fmt F w h q = frameUnit fmt G w h q := by
  have h2 : 0 < w / 2 := by omega
  have hch : 2 * (w / 2 * h) = w * h := by rw [← Nat.mul_assoc]; congr 1; omega
  cases fmt with
  | v210 =>
    have hr : q / (lineBytes w / 4) < h := by
      have hL : 0 < lineBytes w / 4 := by simp only [lineBytes, ceilDiv]; omega
      rw [Nat.div_lt_iff_lt_mul hL]
      simp only [frameBytes, unitBytes] at hq
      have : lineBytes w = 4 * (lineBytes w / 4) := by rw [lineBytes_eq]; omega
      rw [this, Nat.mul_assoc, Nat.mul_div_cancel_left _ (by omega)] at hq
      rw [Nat.mul_comm]; exact hq
    simp only [frameUnit, v210Unit, slotValue_congr hFG hr]
  | planar =>
    have hn : frameBytes .planar w h / unitBytes .planar = 2 * (w * h) := by
      simp only [frameBytes, unitBytes]; rw [show 4 * w * h = 2 * (2 * (w * h)) by ring]; omega
    rw [hn] at hq
    simp only [frameUnit, planarUnit]
    split
    · rename_i h1
      rw [hFG .y (q / w) (q % w) (by rw [Nat.div_lt_iff_lt_mul hw0, Nat.mul_comm]; exact h1) (Nat.mod_lt _ hw0)]
    · split
      · rename_i h1 h3
        rw [hFG .cb ((q - w * h) / (w / 2)) ((q - w * h) % (w / 2))
          (by rw [Nat.div_lt_iff_lt_mul h2, Nat.mul_comm h]; exact h3) (Nat.mod_lt _ h2)]
      · rename_i h1 h3
        rw [hFG .cr ((q - w * h - w / 2 * h) / (w / 2)) ((q - w * h - w / 2 * h) % (w / 2))
          (by rw [Nat.div_lt_iff_lt_mul h2, Nat.mul_comm h]; omega) (Nat.mod_lt _ h2)]
  | yuyv =>
    have hn : frameBytes .yuyv w h / unitBytes .yuyv = 2 * (w * h) := by
      simp only [frameBytes, unitBytes]; rw [show 4 * w * h = 2 * (2 * (w * h)) by ring]; omega
    rw [hn] at hq
    have hr : q / 4 / (w / 2) < h := by rw [Nat.div_lt_iff_lt_mul h2, Nat.mul_comm]; omega
    have hj := Nat.mod_lt (q / 4) h2
    simp only [frameUnit, yuyvUnit]
    split
    · rw [hFG .y _ _ hr (by simp only [compWidth]; omega)]
    · rw [hFG .cb _ _ hr hj]
    · rw [hFG .y _ _ hr (by simp only [compWidth]; omega)]
    · rw [hFG .cr _ _ hr hj]

/-- Encode depends on the samples inside the frame alone. -/
theorem encodeFrame_congr {fmt : Layout} {w h : Nat} {F G : Frame} (hw : w % 2 = 0) (hw0 : 0 < w)
    (hFG : SameFrame w h F G) : encodeFrame fmt F w h = encodeFrame fmt G w h := by
  simp only [encodeFrame]
  rw [List.flatMap_congr]
  intro q hq
  rw [frameUnit_congr hw hw0 (List.mem_range.1 hq) hFG]

end Sys2Proof.Machine
end

