-- ==== Sys2Proof/Laws/HostPort.lean ====
section
/-! SUPPORT. What a step can do, said once, by the host action it performs. -/

namespace Sys2Proof.Machine

/-- The register a legal offset names is the one whose offset it is (10_state.md R21). -/
theorem regAccess_regOffset (reg : Reg) : regAccess (regOffset reg) 32 = .ok reg := by cases reg <;> rfl

/-- An accepted register access names a register by its offset, 32 bits wide. -/
theorem regAccess_ok {off width : Nat} {reg : Reg} (h : regAccess off width = .ok reg) :
    width = 32 ∧ off = regOffset reg := by
  unfold regAccess at h
  split at h; · cases h
  rename_i h1
  split at h; · cases h
  rename_i h2
  split at h
  · rename_i reg' hr
    simp only [Except.ok.injEq] at h; subst h
    have hlt : off / 4 < registerMap.length := by
      by_contra hc
      rw [regAt, List.getElem?_eq_none (by omega)] at hr; cases hr
    refine ⟨by omega, ?_⟩
    obtain ⟨q, hq⟩ : ∃ q, off / 4 = q := ⟨_, rfl⟩
    rw [hq] at hr hlt
    have hoff : off = 4 * q := by omega
    subst hoff
    have hlt' : q < 18 := hlt
    clear hq hlt h1 h2
    interval_cases q <;> cases hr <;> rfl
  · cases h

/-- A register access is accepted exactly where 10_state.md R37 allows it. -/
theorem regAccess_of_legal {off width : Nat} (h : regAccessLegal off width = true) :
    ∃ reg, regAccess off width = .ok reg := by
  simp only [regAccessLegal, Bool.and_eq_true, decide_eq_true_eq] at h
  obtain ⟨⟨hw, h4⟩, hlt⟩ := h
  obtain ⟨q, hq⟩ : ∃ q, off = 4 * q := ⟨off / 4, by omega⟩
  subst hq hw
  have : q < 18 := by omega
  interval_cases q <;> exact ⟨_, rfl⟩

theorem regAccess_error_of_illegal {off width : Nat} (h : regAccessLegal off width = false) :
    ∃ e, regAccess off width = .error e := by
  cases hr : regAccess off width with
  | error e => exact ⟨e, rfl⟩
  | ok reg =>
    obtain ⟨hw, ho⟩ := regAccess_ok hr
    subst hw ho
    cases reg <;> cases h

theorem regOffset_inj {reg reg' : Reg} (h : regOffset reg = regOffset reg') : reg = reg' := by
  have := regAccess_regOffset reg
  rw [h, regAccess_regOffset reg'] at this
  exact (Except.ok.inj this).symm

theorem step_nil {s : State} (h : s.pending = []) : step s = .next s := by simp [step, hostTurn, h]

theorem step_cons {s : State} {a : HostAction} {rest : List HostAction} (h : s.pending = a :: rest) :
    step s = hostAction a (s.taken rest) := by simp only [step, hostTurn, h]; rfl

/-- The write to CMD. -/
theorem step_writeCmd {s : State} {c : Word} {rest : List HostAction} (h : s.pending = .regWrite 0x00 32 c :: rest) :
    step s = runCommand c { s.taken rest with cmd := c } := by
  rw [step_cons h]; rfl

/-- A write to any other register. -/
theorem step_writeReg {s : State} {v : Word} {reg : Reg} {rest : List HostAction} (hr : reg ≠ .cmd)
    (h : s.pending = .regWrite (regOffset reg) 32 v :: rest) : step s = .next ((s.taken rest).writeReg reg v) := by
  rw [step_cons h]
  simp only [hostAction, regAccess_regOffset]
  cases reg <;> first | contradiction | rfl

theorem step_readReg {s : State} {reg : Reg} {rest : List HostAction}
    (h : s.pending = .regRead (regOffset reg) 32 :: rest) :
    step s = .next { s.taken rest with reply := some (s.readReg reg) } := by
  rw [step_cons h]
  simp only [hostAction, regAccess_regOffset]
  cases reg <;> rfl

/-- Everything a memory action can do. -/
theorem memAccess_next {s t : State} {a n v : Nat} {act : State → State} (h : memAccess s a n v act = .next t) :
    (n = 1 ∨ n = 2 ∨ n = 4) ∧ v < 256 ^ n ∧ a + n ≤ 2 ^ s.aw ∧ t = act s := by
  unfold memAccess at h
  split at h; · cases h
  rename_i h1
  split at h; · cases h
  rename_i h2
  split at h; · cases h
  rename_i h3
  simp only [Host.Outcome.next.injEq] at h
  exact ⟨by omega, by omega, by omega, h.symm⟩

theorem memAccess_of_legal {s : State} {a n v : Nat} {act : State → State} (hn : n = 1 ∨ n = 2 ∨ n = 4)
    (hv : v < 256 ^ n) (ha : a + n ≤ 2 ^ s.aw) : memAccess s a n v act = .next (act s) := by
  unfold memAccess
  rw [if_neg (by omega), if_neg (by omega), if_neg (by omega)]

/-- A memory action that is no step of the machine is refused. -/
theorem memAccess_of_illegal {s : State} {a n v : Nat} {act : State → State}
    (h : ¬ (n = 1 ∨ n = 2 ∨ n = 4) ∨ 256 ^ n ≤ v ∨ 2 ^ s.aw < a + n) : ∃ why, memAccess s a n v act = .refused why := by
  unfold memAccess
  split
  · exact ⟨_, rfl⟩
  split
  · exact ⟨_, rfl⟩
  split
  · exact ⟨_, rfl⟩
  · omega

/-- A legal `MW`. -/
theorem step_memWrite {s : State} {a n v : Nat} {rest : List HostAction} (hp : s.pending = .memWrite a n v :: rest)
    (hn : n = 1 ∨ n = 2 ∨ n = 4) (hv : v < 256 ^ n) (ha : a + n ≤ 2 ^ s.aw) :
    step s = .next { s.taken rest with mem := s.mem.writeLE a n v } := by
  rw [step_cons hp]
  simp only [hostAction]
  rw [memAccess_of_legal hn hv (by simpa using ha)]
  rfl

/-- A legal `MR`. -/
theorem step_memRead {s : State} {a n : Nat} {rest : List HostAction} (hp : s.pending = .memRead a n :: rest)
    (hn : n = 1 ∨ n = 2 ∨ n = 4) (ha : a + n ≤ 2 ^ s.aw) :
    step s = .next { s.taken rest with reply := some (BitVec.ofNat 32 (s.mem.readLE a n)) } := by
  rw [step_cons hp]
  simp only [hostAction]
  rw [memAccess_of_legal hn (Nat.pow_pos (by omega)) (by simpa using ha)]
  rfl

theorem step_reset {s : State} {rest : List HostAction} (hp : s.pending = .reset :: rest) :
    step s = .next (State.cleared s.mem s.aw rest) := by rw [step_cons hp]; rfl

/-- Running a word: a legal one is executed, an illegal one faults (30_encoding.md R113). -/
theorem runCommand_next {c : Word} {s t : State} (h : runCommand c s = .next t) :
    (∃ i, decode c = .ok i ∧ exec i s = .next t) ∨
    (∃ e, decode c = .error e ∧ t = s.raiseFault .illegalCommand) := by
  unfold runCommand at h
  split at h
  · rename_i i hd; exact .inl ⟨i, hd, h⟩
  · rename_i e hd
    simp only [Host.Outcome.next.injEq] at h
    exact .inr ⟨e, hd, h.symm⟩

theorem runCommand_answers_next (c : Word) (s : State) : ∃ t, runCommand c s = .next t := by
  unfold runCommand
  split
  · exact exec_answers_next _ _
  · exact ⟨_, rfl⟩

/-! ## Runs -/

theorem run_zero (s : State) : Host.Core.run Sys2Proof.core 0 s = .next s := rfl

/-- A run begins with a step. -/
theorem run_succ {s t : State} {n : Nat} (h : step s = .next t) :
    Host.Core.run Sys2Proof.core (n + 1) s = Host.Core.run Sys2Proof.core n t := by
  have h' : Sys2Proof.core.step s = .next t := h
  simp only [Host.Core.run, h']

/-- Everything a step can do when it answers a next state. -/
theorem step_cases {s t : State} (h : step s = .next t) :
    (s.pending = [] ∧ t = s) ∨
    ∃ a rest, s.pending = a :: rest ∧
      ((∃ c, a = .regWrite 0x00 32 c ∧ runCommand c { s.taken rest with cmd := c } = .next t) ∨
       (∃ reg v, reg ≠ .cmd ∧ a = .regWrite (regOffset reg) 32 v ∧ t = (s.taken rest).writeReg reg v) ∨
       (∃ reg, a = .regRead (regOffset reg) 32 ∧ t = { s.taken rest with reply := some (s.readReg reg) }) ∨
       (∃ addr n v, a = .memWrite addr n v ∧ (n = 1 ∨ n = 2 ∨ n = 4) ∧ v < 256 ^ n ∧ addr + n ≤ 2 ^ s.aw ∧
         t = { s.taken rest with mem := s.mem.writeLE addr n v }) ∨
       (∃ addr n, a = .memRead addr n ∧ (n = 1 ∨ n = 2 ∨ n = 4) ∧ addr + n ≤ 2 ^ s.aw ∧
         t = { s.taken rest with reply := some (BitVec.ofNat 32 (s.mem.readLE addr n)) }) ∨
       (a = .reset ∧ t = State.cleared s.mem s.aw rest)) := by
  cases hp : s.pending with
  | nil =>
    rw [step_nil hp] at h
    exact .inl ⟨rfl, (Host.Outcome.next.inj h).symm⟩
  | cons a rest =>
    refine .inr ⟨a, rest, rfl, ?_⟩
    rw [step_cons hp] at h
    cases a with
    | regWrite off width data =>
      simp only [hostAction] at h
      split at h
      · rename_i reg hr
        obtain ⟨rfl, rfl⟩ := regAccess_ok hr
        by_cases hc : reg = .cmd
        · subst hc; exact .inl ⟨data, rfl, h⟩
        · refine .inr (.inl ⟨reg, data, hc, rfl, ?_⟩)
          cases reg <;> first | contradiction | exact (Host.Outcome.next.inj h).symm
      · cases h
    | regRead off width =>
      simp only [hostAction] at h
      split at h
      · rename_i reg hr
        obtain ⟨rfl, rfl⟩ := regAccess_ok hr
        refine .inr (.inr (.inl ⟨reg, rfl, ?_⟩))
        cases reg <;> exact (Host.Outcome.next.inj h).symm
      · cases h
    | memWrite addr n v =>
      simp only [hostAction] at h
      obtain ⟨h1, h2, h3, h4⟩ := memAccess_next h
      exact .inr (.inr (.inr (.inl ⟨addr, n, v, rfl, h1, h2, h3, h4⟩)))
    | memRead addr n =>
      simp only [hostAction] at h
      obtain ⟨h1, h2, h3, h4⟩ := memAccess_next h
      exact .inr (.inr (.inr (.inr (.inl ⟨addr, n, rfl, h1, h3, h4⟩))))
    | reset => exact .inr (.inr (.inr (.inr (.inr ⟨rfl, (Host.Outcome.next.inj h).symm⟩))))

/-- Everything a command can do to the state: it faults, it is RGB2YCC, LDS or STS and completes, or it is a frame
command that commits. -/
theorem exec_cases {i : Instr} {s t : State} (h : exec i s = .next t) :
    (∃ k, k ≠ FaultCode.degenerateRange ∧ k ≠ FaultCode.illegalCommand ∧ t = s.raiseFault k) ∨
    (i = .rgb2ycc ∧
      t = { s with y := (ycc s.r s.g s.b).1, cb := (ycc s.r s.g s.b).2.1, cr := (ycc s.r s.g s.b).2.2 }.complete false) ∨
    (i = .lds ∧ SourceInside s ∧ 2 * s.index.toNat + 2 ≤ s.srcLen.toNat ∧ t = ldsCommit s) ∨
    (i = .sts ∧ DestInside s ∧ 2 * s.index.toNat + 2 ≤ s.dstLen.toNat ∧ t = stsCommit s) ∨
    (∃ fin fout T strict, KnownTransform T ∧ frameForm i = some (fin, fout, T, strict) ∧
      frameSpec i s = some (specOf fin fout T strict s) ∧
      FrameReady s (specOf fin fout T strict s) ∧ t = frameCommit fin fout T s) := by
  cases hf : frameSpec i s with
  | some f =>
    obtain ⟨fin, fout, T, hT, hform, hex, hspec⟩ := exec_frame hf
    rw [hex] at h
    have ht := (Host.Outcome.next.inj h).symm
    rcases frameCommand_cases fin fout T f.strict s with ⟨k, hk, hc⟩ | ⟨hr, hc⟩
    · refine .inl ⟨k, ?_, ?_, ht.trans hc⟩
      · rcases frameFault_some hk with h | h | h | h | h <;> rw [h.1] <;> decide
      · rcases frameFault_some hk with h | h | h | h | h <;> rw [h.1] <;> decide
    · exact .inr (.inr (.inr (.inr ⟨fin, fout, T, f.strict, hT, hform, by rw [hspec], hr, ht.trans hc⟩)))
  | none =>
    cases i <;> simp only [frameSpec, reduceCtorEq] at hf
    · exact .inr (.inl ⟨rfl, (Host.Outcome.next.inj h).symm⟩)
    · have ht := (Host.Outcome.next.inj h).symm
      have hsrc := regionWellFormed_iff s.aw s.srcBase s.srcLen
      unfold ldsFault at ht
      split at ht
      · exact .inl ⟨_, by decide, by decide, ht⟩
      · split at ht
        · exact .inl ⟨_, by decide, by decide, ht⟩
        · rename_i h1 h2
          exact .inr (.inr (.inl ⟨rfl, hsrc.1 (by simpa using h1), by omega, ht⟩))
    · have ht := (Host.Outcome.next.inj h).symm
      have hdst := regionWellFormed_iff s.aw s.dstBase s.dstLen
      unfold stsFault at ht
      split at ht
      · exact .inl ⟨_, by decide, by decide, ht⟩
      · split at ht
        · exact .inl ⟨_, by decide, by decide, ht⟩
        · rename_i h1 h2
          exact .inr (.inr (.inr (.inl ⟨rfl, hdst.1 (by simpa using h1), by omega, ht⟩)))

end Sys2Proof.Machine
end

