-- ==== Sys2Proof/Laws/PerInstr.lean ====
section
/-! SUPPORT. The family EncodedWordIsLegal, instruction by instruction: the word of an instruction has bits 31:11 zero
and legal fields (30_encoding.md R104, R106), and the fields read back from it are the instruction's. -/

namespace Sys2Proof.Laws

/-- The word of i is legal, and its fields are those the tables give i. -/
def EncodedWordIsLegal.Statement (i : Instr) : Prop :=
  (Command.ofWord (encode i)).wellFormed = true ∧ Command.ofWord (encode i) = i.command ∧ i.wellFormed = true

theorem EncodedWordIsLegal.of_command (i : Instr) (h : i.wellFormed = true) : EncodedWordIsLegal.Statement i := by
  refine ⟨?_, Command.ofWord_toWord _, h⟩
  rw [encode, Command.ofWord_toWord]
  exact command_wellFormed i

theorem EncodedWordIsLegal.unpackV210 (strict : Bool) : EncodedWordIsLegal.Statement (.unpackV210 strict) := of_command _ rfl
theorem EncodedWordIsLegal.packV210 (strict : Bool) : EncodedWordIsLegal.Statement (.packV210 strict) := of_command _ rfl
theorem EncodedWordIsLegal.packYuyv (strict : Bool) : EncodedWordIsLegal.Statement (.packYuyv strict) := of_command _ rfl
theorem EncodedWordIsLegal.unpackYuyv (strict : Bool) : EncodedWordIsLegal.Statement (.unpackYuyv strict) := of_command _ rfl
theorem EncodedWordIsLegal.padWidthV210 (strict : Bool) : EncodedWordIsLegal.Statement (.padWidthV210 strict) := of_command _ rfl
theorem EncodedWordIsLegal.padWidthPlanar (strict : Bool) : EncodedWordIsLegal.Statement (.padWidthPlanar strict) := of_command _ rfl
theorem EncodedWordIsLegal.padWidthYuyv (strict : Bool) : EncodedWordIsLegal.Statement (.padWidthYuyv strict) := of_command _ rfl
theorem EncodedWordIsLegal.cropPadHeightV210 (strict : Bool) : EncodedWordIsLegal.Statement (.cropPadHeightV210 strict) := of_command _ rfl
theorem EncodedWordIsLegal.cropPadHeightPlanar (strict : Bool) : EncodedWordIsLegal.Statement (.cropPadHeightPlanar strict) := of_command _ rfl
theorem EncodedWordIsLegal.cropPadHeightYuyv (strict : Bool) : EncodedWordIsLegal.Statement (.cropPadHeightYuyv strict) := of_command _ rfl
theorem EncodedWordIsLegal.rgb2ycc : EncodedWordIsLegal.Statement .rgb2ycc := of_command _ rfl
theorem EncodedWordIsLegal.lds : EncodedWordIsLegal.Statement .lds := of_command _ rfl
theorem EncodedWordIsLegal.sts : EncodedWordIsLegal.Statement .sts := of_command _ rfl

end Sys2Proof.Laws
end

