-- ==== Sys2Proof/Laws/Picture.lean ====
section
/-! SUPPORT. The model's frames and the spec's pictures: Decode reads the source picture (20_memory.md R77, R78), the
transforms act on it as 42_geometry.md R191 and R193 say, and Encode's bytes show it (20_memory.md R79). -/

namespace Sys2Proof.Machine

/-- The sample values of a frame. -/
def Frame.picture (F : Frame) : Picture :=
  ⟨fun r x => (F .y r x).toNat, fun r x => (F .cb r x).toNat, fun r x => (F .cr r x).toNat⟩

/-- Two pictures that agree inside w × h. -/
structure SamePicture (w h : Nat) (P Q : Picture) : Prop where
  y : ∀ r x, r < h → x < w → P.y r x = Q.y r x
  cb : ∀ r j, r < h → j < w / 2 → P.cb r j = Q.cb r j
  cr : ∀ r j, r < h → j < w / 2 → P.cr r j = Q.cr r j

/-! ## Decode -/

theorem sampleC16_toNat (s : State) (off : Nat) (c : Comp) :
    (s.sampleC16 off c).toNat = srcContainer s off (neutral c).toNat := by
  simp only [State.sampleC16, State.source, srcContainer]
  by_cases h : off + 2 ≤ s.srcLen.toNat
  · simp [h, containerSample]
  · simp [h]

theorem sampleW32_toNat (s : State) (off f : Nat) (c : Comp) :
    (s.sampleW32 off f c).toNat = srcField s off (10 * f) (neutral c).toNat := by
  simp only [State.sampleW32, State.source, srcField]
  by_cases h : off + 4 ≤ s.srcLen.toNat
  · simp [h, v210Field, Nat.pow_mul]
  · simp [h]

/-- Decode reads the picture the source region holds. -/
theorem decodeFrame_picture (fmt : Layout) (s : State) (w h : Nat) :
    (decodeFrame fmt s w h).picture = sourcePicture fmt s w h := by
  cases fmt with
  | planar =>
    simp only [Frame.picture, sourcePicture, decodeFrame, sampleC16_toNat, offPlanar]
    rfl
  | yuyv =>
    simp only [Frame.picture, sourcePicture, decodeFrame, sampleC16_toNat, offYuyv, offPair]
    congr 1
    funext r x
    rcases Nat.mod_two_eq_zero_or_one x with h | h <;> simp [h, neutral]
  | v210 =>
    have h3 : ∀ j, j % 3 = 0 ∨ j % 3 = 1 ∨ j % 3 = 2 := by omega
    have h6 : ∀ x, x % 6 = 0 ∨ x % 6 = 1 ∨ x % 6 = 2 ∨ x % 6 = 3 ∨ x % 6 = 4 ∨ x % 6 = 5 := by omega
    simp only [Frame.picture, sourcePicture, decodeFrame, sampleW32_toNat, offV210, lineBytes, ceilDiv, perGroup]
    congr 1
    · funext r x
      rcases h6 x with h | h | h | h | h | h <;> simp [h, sampleSlot, neutral]
    · funext r x
      rcases h3 x with h | h | h <;> simp [h, sampleSlot, neutral]
    · funext r x
      rcases h3 x with h | h | h <;> simp [h, sampleSlot, neutral]

/-! ## Transforms -/

theorem transformId_picture (w h t : Nat) (F : Frame) : Frame.picture (transformId.apply w h t F) = F.picture := rfl

theorem transformPadW_picture (w h t : Nat) (F : Frame) :
    Frame.picture (transformPadW.apply w h t F) = padPicture w t F.picture := by
  simp only [Frame.picture, transformPadW, padPicture, padShift, padLeftPairs, compWidth, ge_iff_le]
  congr 1 <;> funext r x <;> split <;> rename_i hc <;> simp only [hc, if_true, if_false] <;> rfl

theorem transformCropH_picture (w h t : Nat) (F : Frame) :
    Frame.picture (transformCropH.apply w h t F) = cropPicture h F.picture := by
  simp only [Frame.picture, transformCropH, cropPicture, apply_ite BitVec.toNat]
  rfl

/-! ## Encode -/

theorem slotValue_toNat (F : Frame) (w r g k f : Nat) :
    (slotValue F w r g k f).toNat =
      slotOr0 (compWidth (slotSample k f).1 w) (perGroup (slotSample k f).1 * g + (slotSample k f).2)
        (fun x => (F (slotSample k f).1 r x).toNat) := by
  simp only [slotValue, slotOr0]
  split <;> simp

/-- Encode's bytes show the frame's picture (20_memory.md R71 to R75, R79). -/
theorem shows_encodeFrame {fmt : Layout} {F : Frame} {w h base : Nat} {m : Memory} (hw : w % 2 = 0)
    (hm : ∀ i (hi : i < (encodeFrame fmt F w h).length), m.read (base + i) = (encodeFrame fmt F w h)[i]) :
    Shows fmt m base w h F.picture := by
  cases fmt with
  | planar =>
    intro r hr
    refine ⟨fun x hx => readLE_planar (c := .y) hw hr hx hm, fun j hj => ⟨?_, ?_⟩⟩
    · rw [Nat.add_assoc]; exact readLE_planar (c := .cb) hw hr hj hm
    · rw [Nat.add_assoc]; exact readLE_planar (c := .cr) hw hr hj hm
  | yuyv =>
    intro r hr j hj
    have hy0 := readLE_yuyv (c := .y) (x := 2 * j) hw hr (by simp only [compWidth]; omega) hm
    have hy1 := readLE_yuyv (c := .y) (x := 2 * j + 1) hw hr (by simp only [compWidth]; omega) hm
    have hcb := readLE_yuyv (c := .cb) hw hr hj hm
    have hcr := readLE_yuyv (c := .cr) hw hr hj hm
    simp only [offYuyv, offPair] at hy0 hy1 hcb hcr
    rw [show 2 * j / 2 = j by omega, show 2 * j % 2 = 0 by omega] at hy0
    rw [show (2 * j + 1) / 2 = j by omega, show (2 * j + 1) % 2 = 1 by omega] at hy1
    simp only [← Nat.add_assoc, Nat.mul_zero, Nat.add_zero, Nat.mul_one] at hy0 hy1 hcb hcr
    exact ⟨hy0, hcb, hy1, hcr⟩
  | v210 =>
    intro r hr g hg
    have h0 := readLE_v210 (k := 0) hr hg (by omega) hm
    have h1 := readLE_v210 (k := 1) hr hg (by omega) hm
    have h2 := readLE_v210 (k := 2) hr hg (by omega) hm
    have h3 := readLE_v210 (k := 3) hr hg (by omega) hm
    simp only [offV210, v210Word, slotValue_toNat, slotSample, compWidth, perGroup, lineBytes, ceilDiv] at h0 h1 h2 h3
    simp only [← Nat.add_assoc, Nat.mul_zero, Nat.add_zero, Nat.mul_one] at h0 h1 h2 h3
    exact ⟨h0, h1, h2, h3⟩

/-- Showing a picture speaks of the picture inside the frame only. -/
theorem Shows.congr {fmt : Layout} {m : Memory} {base w h : Nat} {P Q : Picture} (hw : w % 2 = 0)
    (hs : Shows fmt m base w h P) (hPQ : SamePicture w h P Q) : Shows fmt m base w h Q := by
  have hslot : ∀ {n i : Nat} {f g : Nat → Nat}, (i < n → f i = g i) → slotOr0 n i f = slotOr0 n i g := by
    intro n i f g hfg
    simp only [slotOr0]
    split
    · rename_i hi; exact hfg hi
    · rfl
  cases fmt with
  | planar =>
    intro r hr
    refine ⟨fun x hx => ((hs r hr).1 x hx).trans (hPQ.y r x hr hx), fun j hj => ⟨?_, ?_⟩⟩
    · exact ((hs r hr).2 j hj).1.trans (hPQ.cb r j hr hj)
    · exact ((hs r hr).2 j hj).2.trans (hPQ.cr r j hr hj)
  | yuyv =>
    intro r hr j hj
    obtain ⟨a, b, c, d⟩ := hs r hr j hj
    exact ⟨a.trans (hPQ.y _ _ hr (by omega)), b.trans (hPQ.cb _ _ hr hj), c.trans (hPQ.y _ _ hr (by omega)),
      d.trans (hPQ.cr _ _ hr hj)⟩
  | v210 =>
    intro r hr g hg
    have hy := fun i => hslot (n := w) (i := 6 * g + i) (hPQ.y r (6 * g + i) hr)
    have hb := fun i => hslot (n := w / 2) (i := 3 * g + i) (hPQ.cb r (3 * g + i) hr)
    have hr' := fun i => hslot (n := w / 2) (i := 3 * g + i) (hPQ.cr r (3 * g + i) hr)
    have := hs r hr g hg
    simp only [hy, hb, hr'] at this
    exact this

/-- A completed frame command's destination shows the picture of the frame it writes. -/
theorem frameCommit_shows {fin fout : Layout} {T : Transform} {s : State}
    (hw : (T.geometry s.width.toNat s.height.toNat s.target.toNat).1 % 2 = 0) :
    Shows fout (frameCommit fin fout T s).mem s.dstBase.toNat
      (T.geometry s.width.toNat s.height.toNat s.target.toNat).1
      (T.geometry s.width.toNat s.height.toNat s.target.toNat).2 (frameOut fin T s).picture :=
  shows_encodeFrame hw (frameCommit_read_inside fin fout T s)

end Sys2Proof.Machine
end

