-- ==== Sys2Proof/Laws/SampleAccess.lean ====
section
/-! SUPPORT. Everything LDS and STS can do, said once (40_sample_access.md R130, R131), and a run that begins with the
issue of a command. -/

namespace Sys2Proof.Machine

theorem exec_lds_of_fault {s : State} {k : FaultCode} (h : ldsFault s = some k) :
    exec .lds s = .next (faulted s k.code) := by
  simp only [exec, execLds, h, State.checked]; rfl

theorem exec_lds_of_ok {s : State} (h : ldsFault s = none) : exec .lds s = .next (ldsCommit s) := by
  simp only [exec, execLds, h, State.checked]

theorem exec_sts_of_fault {s : State} {k : FaultCode} (h : stsFault s = some k) :
    exec .sts s = .next (faulted s k.code) := by
  simp only [exec, execSts, h, State.checked]; rfl

theorem exec_sts_of_ok {s : State} (h : stsFault s = none) : exec .sts s = .next (stsCommit s) := by
  simp only [exec, execSts, h, State.checked]

/-- The checks of LDS pass exactly where the source region is well formed and holds container INDEX. -/
theorem ldsFault_none_iff (s : State) :
    ldsFault s = none ↔ SourceInside s ∧ 2 * s.index.toNat + 2 ≤ s.srcLen.toNat := by
  have h := regionWellFormed_iff s.aw s.srcBase s.srcLen
  unfold ldsFault
  constructor
  · intro hn
    split at hn
    · cases hn
    · split at hn
      · cases hn
      · rename_i h1 h2; exact ⟨h.1 (by simpa using h1), by omega⟩
  · rintro ⟨h1, h2⟩
    rw [if_neg (by simp [h.2 h1]), if_neg (by omega)]

/-- The checks of STS pass exactly where the destination region is well formed and holds container INDEX. -/
theorem stsFault_none_iff (s : State) :
    stsFault s = none ↔ DestInside s ∧ 2 * s.index.toNat + 2 ≤ s.dstLen.toNat := by
  have h := regionWellFormed_iff s.aw s.dstBase s.dstLen
  unfold stsFault
  constructor
  · intro hn
    split at hn
    · cases hn
    · split at hn
      · cases hn
      · rename_i h1 h2; exact ⟨h.1 (by simpa using h1), by omega⟩
  · rintro ⟨h1, h2⟩
    rw [if_neg (by simp [h.2 h1]), if_neg (by omega)]

/-- A run that begins with the issue of a command runs that command first. -/
theorem run_issue {s t : State} {c : Word} {i : Instr} {rest : List HostAction} {n : Nat} (hc : decode c = .ok i)
    (hp : s.pending = .regWrite 0x00 32 c :: rest) (hx : exec i { s.taken rest with cmd := c } = .next t) :
    Host.Core.run Sys2Proof.core (n + 1) s = Host.Core.run Sys2Proof.core n t := by
  apply run_succ
  rw [step_writeCmd hp, runCommand, hc]
  exact hx

end Sys2Proof.Machine
end

