-- ==== Sys2Proof/Tests/Slice0.lean ====
section
/-! SUPPORT. The model's own tests: ill-formed terms, words written out from the spec's encoding, one step per command
with the results of 95_test_vectors.md, and for every statement with hypotheses a state that meets them. -/

namespace Sys2Proof.Tests

open Sys2Proof.Machine

/-! ## Well-formedness: one ill-formed term for each check -/

/-- Bit 11 set on UNPACK_V210. -/
theorem test_zero_bits_refused :
    Command.zeroClear ⟨1, 0, 0, 1⟩ = false ∧ Command.wellFormed ⟨1, 0, 0, 1⟩ = false := by decide

/-- OP 0x00 and 0x0A, at the two ends of the list. -/
theorem test_opcodes_refused :
    Command.opAssigned ⟨0, 0, 0, 0⟩ = false ∧ Command.wellFormed ⟨0, 0, 0, 0⟩ = false ∧
    Command.opAssigned ⟨10, 0, 0, 0⟩ = false ∧ Command.wellFormed ⟨10, 0, 0, 0⟩ = false := by decide

/-- FMT 3 on PAD_WIDTH. -/
theorem test_fmt3_refused :
    Command.fmtAssigned ⟨5, 0, 3, 0⟩ = false ∧ Command.wellFormed ⟨5, 0, 3, 0⟩ = false := by decide

/-- FMT 1 on UNPACK_YUYV and on RGB2YCC. -/
theorem test_fmt_elsewhere_refused :
    Command.fmtApplies ⟨4, 0, 1, 0⟩ = false ∧ Command.wellFormed ⟨4, 0, 1, 0⟩ = false ∧
    Command.wellFormed ⟨7, 0, 1, 0⟩ = false := by decide

/-- STRICT on RGB2YCC, LDS and STS. -/
theorem test_strict_elsewhere_refused :
    Command.strictApplies ⟨7, 1, 0, 0⟩ = false ∧ Command.wellFormed ⟨7, 1, 0, 0⟩ = false ∧
    Command.wellFormed ⟨8, 1, 0, 0⟩ = false ∧ Command.wellFormed ⟨9, 1, 0, 0⟩ = false := by decide

/-- A register access past OUT_LEN, at an odd offset, of 16 bits. -/
theorem test_register_accesses_refused :
    regAccessLegal 0x44 32 = true ∧ regAccessLegal 0x48 32 = false ∧ regAccessLegal 0x42 32 = false ∧
    regAccessLegal 0x44 16 = false := by decide

/-- A memory access of 3 bytes, one that leaves 2^AW, a value that does not fit. -/
theorem test_memory_accesses_refused :
    memAccessLegal 16 0xFFFC 4 = true ∧ memAccessLegal 16 0xFFFD 4 = false ∧ memAccessLegal 16 0 3 = false ∧
    HostAction.wellFormed 16 (.memWrite 0 1 256) = false ∧ HostAction.wellFormed 16 (.memWrite 0 1 255) = true := by
  decide

/-! ## Words written out from 30_encoding.md R105 -/

theorem test_decode_unpackV210 :
    decode 0x00000001 = .ok (.unpackV210 false) ∧ decode 0x00000101 = .ok (.unpackV210 true) := ⟨rfl, rfl⟩
theorem test_decode_packV210 :
    decode 0x00000002 = .ok (.packV210 false) ∧ decode 0x00000102 = .ok (.packV210 true) := ⟨rfl, rfl⟩
theorem test_decode_packYuyv :
    decode 0x00000003 = .ok (.packYuyv false) ∧ decode 0x00000103 = .ok (.packYuyv true) := ⟨rfl, rfl⟩
theorem test_decode_unpackYuyv :
    decode 0x00000004 = .ok (.unpackYuyv false) ∧ decode 0x00000104 = .ok (.unpackYuyv true) := ⟨rfl, rfl⟩
theorem test_decode_padWidthV210 :
    decode 0x00000005 = .ok (.padWidthV210 false) ∧ decode 0x00000105 = .ok (.padWidthV210 true) := ⟨rfl, rfl⟩
theorem test_decode_padWidthPlanar :
    decode 0x00000205 = .ok (.padWidthPlanar false) ∧ decode 0x00000305 = .ok (.padWidthPlanar true) := ⟨rfl, rfl⟩
theorem test_decode_padWidthYuyv :
    decode 0x00000405 = .ok (.padWidthYuyv false) ∧ decode 0x00000505 = .ok (.padWidthYuyv true) := ⟨rfl, rfl⟩
theorem test_decode_cropPadHeightV210 :
    decode 0x00000006 = .ok (.cropPadHeightV210 false) ∧ decode 0x00000106 = .ok (.cropPadHeightV210 true) := ⟨rfl, rfl⟩
theorem test_decode_cropPadHeightPlanar :
    decode 0x00000206 = .ok (.cropPadHeightPlanar false) ∧ decode 0x00000306 = .ok (.cropPadHeightPlanar true) :=
  ⟨rfl, rfl⟩
theorem test_decode_cropPadHeightYuyv :
    decode 0x00000406 = .ok (.cropPadHeightYuyv false) ∧ decode 0x00000506 = .ok (.cropPadHeightYuyv true) := ⟨rfl, rfl⟩
theorem test_decode_sample_and_colour :
    decode 0x00000007 = .ok .rgb2ycc ∧ decode 0x00000008 = .ok .lds ∧ decode 0x00000009 = .ok .sts := ⟨rfl, rfl, rfl⟩

/-- The illegal words of 95_test_vectors.md section 2.1. -/
theorem test_illegal_words :
    ([0x00000000, 0x0000000A, 0x000000FF, 0x00000100, 0x00000107, 0x00000108, 0x00000109, 0x00000201, 0x00000207,
      0x00000605, 0x00000606, 0x00000705, 0x00000800, 0x00000805, 0x00010001, 0x80000001, 0xFFFFFFFF].map
        (decodeTableWord 32)) = List.replicate 17 none := by decide

/-- The encoder writes the words back, and they are the 23 of R105. -/
theorem test_encode :
    ([.unpackV210 true, .packV210 false, .packYuyv true, .unpackYuyv false, .padWidthV210 true, .padWidthPlanar false,
      .padWidthYuyv true, .cropPadHeightV210 false, .cropPadHeightPlanar true, .cropPadHeightYuyv false, .rgb2ycc, .lds,
      .sts].map encode) =
      [0x101, 0x002, 0x103, 0x004, 0x105, 0x205, 0x505, 0x006, 0x306, 0x406, 0x007, 0x008, 0x009] ∧
    legalWords.all (fun w => (decodeTableWord 32 w.toNat).isSome) = true := by decide

/-! ## One step each, with the results of 95_test_vectors.md -/

/-- The bytes `bs` at 0x1000, the source there, the destination at 0x3000, AW = 16, and a geometry. -/
def transcoder (bs : List Byte) (srcLen dstLen width height target : Word) : State :=
  { State.powerOn (Memory.writeBlock [] 0x1000 bs) 16 with
    srcBase := 0x1000
    srcLen := srcLen
    dstBase := 0x3000
    dstLen := dstLen
    width := width
    height := height
    target := target }

/-- The next state, or s itself where the machine stops. -/
def after (out : Host.Outcome State Fault Refusal) (s : State) : State :=
  match out with
  | .next t => t
  | .fault f => nomatch f
  | .refused _ => s

/-- STATUS, OUT_LEN and the first n bytes of the destination after one step that issues the command. -/
def issued (s : State) (i : Instr) (n : Nat) : Nat × Nat × List Nat :=
  let t := after (step (s.withFetchWord 32 (encode i).toNat)) s
  (t.status.toWord.toNat, t.outLen.toNat, (List.range n).map fun k => (t.mem.read (0x3000 + k)).toNat)

/-- The planar frame of vector V3, 6 × 1. -/
def planar6 : List Byte :=
  [0x01, 0x01, 0x02, 0x01, 0x03, 0x01, 0x04, 0x01, 0x05, 0x01, 0x06, 0x01, 0x01, 0x02, 0x02, 0x02, 0x03, 0x02, 0x01,
   0x03, 0x02, 0x03, 0x03, 0x03]

/-- Its v210 words, with bits 31:30 set as in the second half of the vector. -/
def v210Dirty : List Byte :=
  [0x01, 0x06, 0x14, 0xF0, 0x02, 0x09, 0x38, 0xD0, 0x02, 0x13, 0x34, 0xE0, 0x05, 0x0D, 0x6C, 0xD0]

/-- Vector V3: bits 31:30 have no influence. -/
theorem test_unpackV210 :
    issued (transcoder v210Dirty 128 30 6 1 0) (.unpackV210 false) 24 = (0, 24, planar6.map (·.toNat)) := by
  decide +kernel

/-- A source short by one padding byte (20_memory.md R78): every sample is there, WARN and WARNS are set; under STRICT
ShortRead. -/
theorem test_unpackV210_short :
    issued (transcoder v210Dirty 127 24 6 1 0) (.unpackV210 false) 24 = (0x30, 24, planar6.map (·.toNat)) ∧
    issued (transcoder v210Dirty 127 24 6 1 0) (.unpackV210 true) 2 = (0x42, 0, [0, 0]) := by
  decide +kernel

/-- Vector V5, width 4: a group that the width cuts, slots beyond it and bits 31:30 zero. -/
theorem test_packV210 :
    issued
      (transcoder
        [0x11, 0x01, 0x12, 0x01, 0x13, 0x01, 0x14, 0x01, 0x21, 0x02, 0x22, 0x02, 0x31, 0x03, 0x32, 0x03]
        16 128 4 1 0)
      (.packV210 false) 20 =
      (0, 128, [0x21, 0x46, 0x14, 0x33, 0x12, 0x89, 0x38, 0x11, 0x32, 0x53, 0x04, 0x00, 0, 0, 0, 0, 0, 0, 0, 0]) := by
  decide +kernel

/-- Vector V4: dirty containers are masked to ten bits. -/
theorem test_packV210_masks :
    issued (transcoder (List.replicate 24 0xFF) 24 128 6 1 0) (.packV210 true) 16 =
      (0, 128, [0xFF, 0xFF, 0xFF, 0x3F, 0xFF, 0xFF, 0xFF, 0x3F, 0xFF, 0xFF, 0xFF, 0x3F, 0xFF, 0xFF, 0xFF, 0x3F]) := by
  decide +kernel

/-- Vector V10. -/
theorem test_packYuyv :
    issued (transcoder planar6 24 24 6 1 0) (.packYuyv false) 24 =
      (0, 24, [0x01, 0x01, 0x01, 0x02, 0x02, 0x01, 0x01, 0x03, 0x03, 0x01, 0x02, 0x02, 0x04, 0x01, 0x02, 0x03, 0x05, 0x01,
        0x03, 0x02, 0x06, 0x01, 0x03, 0x03]) := by
  decide +kernel

/-- Vector V14, UNPACK_YUYV of one dirty pair. -/
theorem test_unpackYuyv :
    issued (transcoder [0x40, 0xFC, 0x00, 0xAA, 0x41, 0x80, 0x00, 0x7E] 8 8 2 1 0) (.unpackYuyv false) 8 =
      (0, 8, [0x40, 0x00, 0x41, 0x00, 0x00, 0x02, 0x00, 0x02]) := by
  decide +kernel

/-- A source that ends inside the second container: the rest is neutral, WARN and WARNS are set. -/
theorem test_unpackYuyv_short :
    issued (transcoder [0x40, 0xFC, 0x00, 0xAA, 0x41, 0x80, 0x00, 0x7E] 3 8 2 1 0) (.unpackYuyv false) 8 =
      (0x30, 8, [0x40, 0x00, 0x40, 0x00, 0x00, 0x02, 0x00, 0x02]) := by
  decide +kernel

/-- Vector W3: PAD_WIDTH V210 from 4 to 10 pixels. -/
theorem test_padWidthV210 :
    issued
      (transcoder [0x10, 0x02, 0x04, 0x31, 0x01, 0x45, 0x28, 0x10, 0x11, 0x0F, 0x04, 0x00] 128 128 4 1 10)
      (.padWidthV210 false) 32 =
      (0, 128, [0x00, 0x02, 0x01, 0x20, 0x40, 0x40, 0x08, 0x10, 0x10, 0x07, 0x14, 0x21, 0x02, 0x45, 0x3C, 0x10, 0x00, 0x02,
        0x01, 0x20, 0x40, 0x00, 0x08, 0x04, 0x00, 0x02, 0x01, 0x00, 0, 0, 0, 0]) := by
  decide +kernel

/-- By hand from 42_geometry.md R191: a pixel pair padded to 4 pixels: floor(2/4) = 0 pairs on the left, one on the right. -/
theorem test_padWidthPlanar :
    issued (transcoder [0x00, 0x01, 0x01, 0x01, 0x10, 0x02, 0x10, 0x03] 8 16 2 1 4) (.padWidthPlanar false) 16 =
      (0, 16, [0x00, 0x01, 0x01, 0x01, 0x40, 0x00, 0x40, 0x00, 0x10, 0x02, 0x00, 0x02, 0x10, 0x03, 0x00, 0x02]) := by
  decide +kernel

/-- Vector W1's source pair padded by two pairs: one on each side. -/
theorem test_padWidthYuyv :
    issued (transcoder [0x00, 0x01, 0x10, 0x02, 0x01, 0x01, 0x10, 0x03] 8 24 2 1 6) (.padWidthYuyv false) 24 =
      (0, 24, [0x40, 0x00, 0x00, 0x02, 0x40, 0x00, 0x00, 0x02, 0x00, 0x01, 0x10, 0x02, 0x01, 0x01, 0x10, 0x03, 0x40, 0x00,
        0x00, 0x02, 0x40, 0x00, 0x00, 0x02]) := by
  decide +kernel

/-- Vector W5: an odd TARGET and a TARGET below WIDTH are refused with InvalidGeometry. -/
theorem test_padWidthYuyv_target :
    (issued (transcoder [] 16 64 4 1 3) (.padWidthYuyv false) 1).1 = 0x41 ∧
    (issued (transcoder [] 16 64 4 1 2) (.padWidthYuyv false) 1).1 = 0x41 := by
  decide +kernel

/-- Vector H3: one line of two becomes the only line. -/
theorem test_cropPadHeightV210 :
    issued (transcoder [0x10, 0x02, 0x04, 0x31, 0x01, 0x01] 256 128 2 2 1) (.cropPadHeightV210 false) 12 =
      (0, 128, [0x10, 0x02, 0x04, 0x31, 0x01, 0x01, 0, 0, 0, 0, 0, 0]) := by
  decide +kernel

/-- Vector H2, cropped from 3 lines to 2. -/
theorem test_cropPadHeightPlanar :
    issued
      (transcoder
        [0x00, 0x01, 0x01, 0x01, 0x10, 0x01, 0x11, 0x01, 0x20, 0x01, 0x21, 0x01, 0x10, 0x02, 0x11, 0x02, 0x12, 0x02, 0x10,
         0x03, 0x11, 0x03, 0x12, 0x03]
        24 64 2 3 2)
      (.cropPadHeightPlanar false) 16 =
      (0, 16, [0x00, 0x01, 0x01, 0x01, 0x10, 0x01, 0x11, 0x01, 0x10, 0x02, 0x11, 0x02, 0x10, 0x03, 0x11, 0x03]) := by
  decide +kernel

/-- Vector H1's first line padded with a neutral line. -/
theorem test_cropPadHeightYuyv :
    issued (transcoder [0x00, 0x01, 0x10, 0x02, 0x01, 0x01, 0x10, 0x03] 8 16 2 1 2) (.cropPadHeightYuyv false) 16 =
      (0, 16, [0x00, 0x01, 0x10, 0x02, 0x01, 0x01, 0x10, 0x03, 0x40, 0x00, 0x00, 0x02, 0x40, 0x00, 0x00, 0x02]) := by
  decide +kernel

/-- TARGET = 0 is refused with InvalidGeometry. -/
theorem test_cropPadHeightYuyv_target : (issued (transcoder [] 8 16 2 1 0) (.cropPadHeightYuyv false) 1).1 = 0x41 := by
  decide +kernel

/-- Y, CB and CR after RGB2YCC. -/
def coloured (r g b : Sample) : List Nat :=
  let t := after (exec .rgb2ycc { State.reset with r := r, g := g, b := b }) State.reset
  [t.y.toNat, t.cb.toNat, t.cr.toNat]

/-- Rows of the table of 95_test_vectors.md for the bars and for inputs outside the studio range. -/
theorem test_rgb2ycc :
    coloured 940 940 64 = [840, 64, 585] ∧ coloured 64 940 940 = [678, 663, 64] ∧
    coloured 940 64 64 = [326, 361, 960] ∧ coloured 1023 0 0 = [306, 335, 960] ∧ coloured 0 0 0 = [64, 512, 512] := by
  decide +kernel

/-- Rows where one rounding step decides. -/
theorem test_rgb2ycc_rounding :
    coloured 65 64 64 = [64, 512, 513] ∧ coloured 64 65 64 = [65, 512, 512] ∧ coloured 63 64 64 = [64, 512, 511] ∧
    coloured 512 300 700 = [409, 680, 587] ∧ coloured 73 271 514 = [240, 670, 391] := by
  decide +kernel

/-- SMP and STATUS after LDS of container i of the memory of 95_test_vectors.md section 2.2. -/
def loaded (srcLen index : Word) : Nat × Nat :=
  let s := { transcoder [0x40, 0xFC, 0xFF, 0x03, 0x00, 0x04, 0x34, 0x12, 0xAB] srcLen 0 0 0 0 with index := index }
  let t := after (exec .lds s) s
  (t.smp.toNat, t.status.toWord.toNat)

/-- The table of LDS: bits 15:10 dropped, the odd last byte out of reach. -/
theorem test_lds :
    loaded 9 0 = (0x040, 0) ∧ loaded 9 1 = (0x3FF, 0) ∧ loaded 9 2 = (0, 0) ∧ loaded 9 3 = (0x234, 0) ∧
    loaded 9 4 = (0, 0x42) ∧ loaded 5 2 = (0, 0x42) := by
  decide +kernel

/-- 2·INDEX + 2 does not wrap. -/
theorem test_lds_index : loaded 9 0xFFFFFFFF = (0, 0x42) ∧ loaded 9 0x7FFFFFFF = (0, 0x42) := by decide +kernel

/-- STATUS and the first ten bytes of the destination after STS of 0x3FF. -/
def stored (dstLen index : Word) : Nat × List Nat :=
  let s := { transcoder [] 0 dstLen 0 0 0 with
    mem := Memory.writeBlock [] 0x3000 (List.replicate 10 0xEE), index := index, smp := 0x3FF }
  let t := after (exec .sts s) s
  (t.status.toWord.toNat, (List.range 10).map fun k => (t.mem.read (0x3000 + k)).toNat)

/-- The first rows of the table of STS. -/
theorem test_sts :
    stored 8 3 = (0, [0xEE, 0xEE, 0xEE, 0xEE, 0xEE, 0xEE, 0xFF, 0x03, 0xEE, 0xEE]) ∧
    stored 8 4 = (0x43, List.replicate 10 0xEE) ∧ stored 7 3 = (0x43, List.replicate 10 0xEE) := by
  decide +kernel

/-- A region that reaches beyond 2^AW: RegionError for STS, before the index is looked at. -/
theorem test_sts_region :
    (after (exec .sts { State.reset with dstBase := 0xFFFFFFFF, dstLen := 2, index := 9 }) State.reset).status.toWord = 0x46 ∧
    (after (exec .sts { State.reset with dstBase := 0xFFFFFFFE, dstLen := 2, smp := 0x123 }) State.reset).mem =
      [(0xFFFFFFFE, 0x23), (0xFFFFFFFF, 0x01)] := by
  decide +kernel

/-- The legal words as the first command after reset (95_test_vectors.md section 2.1). -/
theorem test_first_command :
    ([0x00000000, 0x0000000A, 0x00000305, 0x00000506, 0x00000007, 0x00000008, 0x00000009].map fun w =>
      (after (step (State.reset.withFetchWord 32 w)) State.reset).status.toWord.toNat) =
      [0x45, 0x45, 0x41, 0x41, 0x00, 0x42, 0x43] := by
  decide +kernel

/-! ## States that meet the hypotheses of the statements -/

/-- A state whose next host actions are the given ones. -/
def withActions (s : State) (acts : List HostAction) : State := { s with pending := acts }

/-- Reset with the given host actions to come. -/
def hosted (acts : List HostAction) : State := withActions State.reset acts

/-- The state after a command, for chains. -/
def ran (i : Instr) (s : State) : State := after (exec i s) s

theorem witness_ResetLeavesEveryRegisterZero : (hosted [.reset, .memRead 0 1]).pending = .reset :: [.memRead 0 1] := rfl
theorem witness_ResetKeepsMemory : (withActions (transcoder [7] 0 0 0 0 0) [.reset]).pending = .reset :: [] := rfl
theorem witness_CommandsStraightAfterReset :
    ∃ f, frameSpec (.cropPadHeightYuyv true) (State.powerOn [(5, 7)] 16) = some f := ⟨_, rfl⟩

/-- A legal word, an illegal word, a read of CMD, a command, and an action that leaves CMD. -/
theorem witness_WriteToCmdRunsTheDecodedCommand :
    (hosted [.regWrite 0x00 32 0x007]).pending = .regWrite 0x00 32 0x007 :: [] ∧ decode 0x007 = .ok .rgb2ycc ∧
    (hosted [.regWrite 0x00 32 0x800]).pending = .regWrite 0x00 32 0x800 :: [] ∧ decode 0x800 = .error .zeroBits ∧
    (∃ t, step (hosted [.regWrite 0x00 32 0x800]) = .next t) ∧
    (hosted [.regRead 0x00 32]).pending = .regRead 0x00 32 :: [] ∧ (∃ t, exec .sts State.reset = .next t) ∧
    (hosted [.regWrite 0x04 32 9]).pending = .regWrite 0x04 32 9 :: [] ∧
    (∃ t, step (hosted [.regWrite 0x04 32 9]) = .next t) ∧
    HostAction.regWrite 0x04 32 9 ≠ .reset ∧ ∀ c, HostAction.regWrite 0x04 32 9 ≠ .regWrite 0x00 32 c :=
  ⟨rfl, rfl, rfl, rfl, ⟨_, rfl⟩, rfl, ⟨_, rfl⟩, rfl, ⟨_, rfl⟩, by decide, fun c h => by cases h⟩

theorem witness_StepRunsTheFetchedWord : decode (BitVec.ofNat 32 0x505) = .ok (.padWidthYuyv true) := rfl
theorem witness_NoPendingActionStandsStill : State.reset.pending = [] := rfl

/-- A completing command, a faulting one, an illegal word, another action, RESET. -/
theorem witness_StatusFollowsTheCommand :
    (∃ t, exec .rgb2ycc State.reset = .next t ∧ t.status.err = 0) ∧
    (∃ t, exec .lds State.reset = .next t ∧ t.status.err ≠ 0) ∧
    (hosted [.regWrite 0x00 32 0x00A]).pending = .regWrite 0x00 32 0x00A :: [] ∧ (0x00A : Word) ∉ legalWords ∧
    (∃ t, step (hosted [.regWrite 0x00 32 0x00A]) = .next t) ∧
    (hosted [.regWrite 0x04 32 9]).pending = .regWrite 0x04 32 9 :: [] ∧
    (∃ t, step (hosted [.regWrite 0x04 32 9]) = .next t) ∧
    HostAction.regWrite 0x04 32 9 ≠ .reset ∧ (∀ c, HostAction.regWrite 0x04 32 9 ≠ .regWrite 0x00 32 c) ∧
    (hosted [.reset]).pending = .reset :: [] :=
  ⟨⟨_, rfl, rfl⟩, ⟨_, rfl, by decide⟩, rfl, by decide, ⟨_, rfl⟩, rfl, ⟨_, rfl⟩, by decide, (fun c h => by cases h), rfl⟩

/-- The pairs of offset and value of the register map (10_state.md R21). -/
def mapOf (s : State) : List (Nat × Nat) :=
  [(0x00, s.cmd.toNat),
   (0x04, s.status.err.toNat + 16 * s.status.warn.toNat + 32 * s.status.warns.toNat + 64 * s.status.faulted.toNat),
   (0x08, s.srcBase.toNat), (0x0C, s.srcLen.toNat), (0x10, s.dstBase.toNat), (0x14, s.dstLen.toNat),
   (0x18, s.width.toNat), (0x1C, s.height.toNat), (0x20, s.target.toNat), (0x24, s.index.toNat), (0x28, s.smp.toNat),
   (0x2C, s.r.toNat), (0x30, s.g.toNat), (0x34, s.b.toNat), (0x38, s.y.toNat), (0x3C, s.cb.toNat), (0x40, s.cr.toNat),
   (0x44, s.outLen.toNat)]

/-- The first and the last offset of the map, and STATUS after a fault. -/
theorem witness_RegisterReadsFollowTheMap :
    let s := { hosted [.regRead 0x04 32] with status := ⟨2, false, true, true⟩ }
    ((0x00, 0) ∈ mapOf State.reset ∧ (hosted [.regRead 0x00 32]).pending = .regRead 0x00 32 :: []) ∧
    ((0x44, 0) ∈ mapOf State.reset ∧ (hosted [.regRead 0x44 32]).pending = .regRead 0x44 32 :: []) ∧
    ((0x04, 0x62) ∈ mapOf s ∧ s.pending = .regRead 0x04 32 :: []) :=
  ⟨⟨by decide, rfl⟩, ⟨by decide, rfl⟩, ⟨by decide, rfl⟩⟩

/-- The first and the last of the eight plain registers. -/
theorem witness_RegisterWritesStoreTheValue :
    (hosted [.regWrite 0x08 32 1]).pending = .regWrite 0x08 32 1 :: [] ∧
    (hosted [.regWrite 0x0C 32 2]).pending = .regWrite 0x0C 32 2 :: [] ∧
    (hosted [.regWrite 0x10 32 3]).pending = .regWrite 0x10 32 3 :: [] ∧
    (hosted [.regWrite 0x14 32 4]).pending = .regWrite 0x14 32 4 :: [] ∧
    (hosted [.regWrite 0x18 32 5]).pending = .regWrite 0x18 32 5 :: [] ∧
    (hosted [.regWrite 0x1C 32 6]).pending = .regWrite 0x1C 32 6 :: [] ∧
    (hosted [.regWrite 0x20 32 7]).pending = .regWrite 0x20 32 7 :: [] ∧
    (hosted [.regWrite 0x24 32 0xFFFFFFFF]).pending = .regWrite 0x24 32 0xFFFFFFFF :: [] :=
  ⟨rfl, rfl, rfl, rfl, rfl, rfl, rfl, rfl⟩

/-- Source and destination are the same eight bytes; container 3 is the last. -/
def sampleState : State :=
  { transcoder [] 8 8 0 0 0 with srcBase := 0x2000, dstBase := 0x2000, index := 3, smp := 0x3FF }

theorem witness_DataRegistersKeepTenBits :
    (hosted [.regWrite 0x28 32 0xFFFFF3FF]).pending = .regWrite 0x28 32 0xFFFFF3FF :: [] ∧
    (hosted [.regWrite 0x34 32 0x400]).pending = .regWrite 0x34 32 0x400 :: [] ∧
    (∃ t, exec .sts sampleState = .next t) ∧ Instr.sts ≠ .lds ∧ Completes .lds sampleState (ran .lds sampleState) :=
  ⟨rfl, rfl, ⟨_, rfl⟩, by decide, rfl, by decide +kernel⟩

theorem witness_ReadOnlyRegistersIgnoreWrites :
    (hosted [.regWrite 0x04 32 5]).pending = .regWrite 0x04 32 5 :: [] ∧ 0x04 ∈ [0x04, 0x38, 0x3C, 0x40, 0x44] ∧
    (hosted [.regWrite 0x44 32 5]).pending = .regWrite 0x44 32 5 :: [] ∧ 0x44 ∈ [0x04, 0x38, 0x3C, 0x40, 0x44] ∧
    (hosted [.regRead 0x44 32]).pending = .regRead 0x44 32 :: [] ∧ 0x44 % 4 = 0 ∧ 0x44 < 0x48 :=
  ⟨rfl, by decide, rfl, by decide, rfl, by decide, by decide⟩

/-- The first offset past the map, an unaligned offset inside it, a narrow access. -/
theorem witness_OffMapRegisterAccessesAreRefused :
    (hosted [.regWrite 0x48 32 5]).pending = .regWrite 0x48 32 5 :: [] ∧ 0x48 ≤ 0x48 ∧
    (hosted [.regRead 0x46 32]).pending = .regRead 0x46 32 :: [] ∧ 0x46 % 4 ≠ 0 ∧
    (hosted [.regRead 0x44 16]).pending = .regRead 0x44 16 :: [] ∧ 16 ≠ 32 :=
  ⟨rfl, by decide, rfl, by decide, rfl, by decide⟩

/-- Each clause at its boundary: sizes beside the legal ones, the first access that leaves 2^AW, a value of 256. -/
theorem witness_IllegalMemoryActionsStop :
    ((hosted [.memWrite 0 3 0]).pending = .memWrite 0 3 0 :: [] ∧ 3 ∉ [1, 2, 4]) ∧
    ((hosted [.memWrite 0xFFFFFFFD 4 5]).pending = .memWrite 0xFFFFFFFD 4 5 :: [] ∧
      2 ^ State.reset.aw < 0xFFFFFFFD + 4) ∧
    ((hosted [.memWrite 0 1 256]).pending = .memWrite 0 1 256 :: [] ∧ 256 ^ 1 ≤ 256) ∧
    ((hosted [.memRead 0 0]).pending = .memRead 0 0 :: [] ∧ 0 ∉ [1, 2, 4]) ∧
    ((hosted [.memRead 0xFFFFFFFF 2]).pending = .memRead 0xFFFFFFFF 2 :: [] ∧
      2 ^ State.reset.aw < 0xFFFFFFFF + 2) := by
  refine ⟨⟨rfl, ?_⟩, ⟨rfl, ?_⟩, ⟨rfl, ?_⟩, ⟨rfl, ?_⟩, ⟨rfl, ?_⟩⟩ <;> decide

/-- The byte past the end is refused by name, the last byte is not. -/
theorem test_memory_end :
    step (hosted [.memRead 0x100000000 1]) = .refused (.addressOutsideMemory 0x100000000 1) ∧
    ∃ t, step (hosted [.memRead 0xFFFFFFFF 1]) = .next t ∧ t.reply = some 0 := ⟨rfl, _, rfl, rfl⟩

/-- The largest value at the top of memory. -/
theorem witness_HostMemoryWriteStoresItsBytes :
    4 ∈ [1, 2, 4] ∧ 0xFFFFFFFF < 256 ^ 4 ∧ 0xFFFFFFFC + 4 ≤ 2 ^ State.reset.aw ∧
    (hosted [.memWrite 0xFFFFFFFC 4 0xFFFFFFFF]).pending = .memWrite 0xFFFFFFFC 4 0xFFFFFFFF :: [] := by
  refine ⟨?_, ?_, ?_, rfl⟩ <;> decide

theorem witness_HostMemoryReadReturnsItsBytes :
    2 ∈ [1, 2, 4] ∧ 0xFFFFFFFE + 2 ≤ 2 ^ State.reset.aw ∧
    (hosted [.memRead 0xFFFFFFFE 2]).pending = .memRead 0xFFFFFFFE 2 :: [] := by
  refine ⟨?_, ?_, rfl⟩ <;> decide

theorem witness_LegalWordsAreTheTwentyThree :
    decode 0x405 = .ok (.padWidthYuyv false) ∧
    (0x505 : Word) &&& (rowPattern (.padWidthYuyv true)).1 = (rowPattern (.padWidthYuyv true)).2 := ⟨rfl, by decide⟩

/-- Bit 11 alone makes UNPACK_V210's word illegal. -/
theorem witness_IllegalWordsFault :
    illegalWord 0x801 ∧ (hosted [.regWrite 0x00 32 0x801]).pending = .regWrite 0x00 32 0x801 :: [] :=
  ⟨.inr (.inr (.inr (.inr (by decide)))), rfl⟩

/-- Each clause: a region that ends one byte past memory, an index one past the last container, the last container. -/
theorem witness_LdsLoadsOneSample :
    ¬ SourceInside { State.reset with srcBase := 0xFFFFFFFF, srcLen := 2 } ∧
    (SourceInside { sampleState with srcLen := 7 } ∧ 2 * sampleState.index.toNat + 2 > (7 : Word).toNat) ∧
    (SourceInside sampleState ∧ 2 * sampleState.index.toNat + 2 ≤ sampleState.srcLen.toNat) := by decide

theorem witness_StsStoresOneSample :
    ¬ DestInside { State.reset with dstBase := 0xFFFFFFFF, dstLen := 2 } ∧
    (DestInside { sampleState with dstLen := 7 } ∧ 2 * sampleState.index.toNat + 2 > (7 : Word).toNat) ∧
    (DestInside sampleState ∧ 2 * sampleState.index.toNat + 2 ≤ sampleState.dstLen.toNat) ∧
    stsAddress sampleState = 0x2006 := by decide

theorem witness_StoreThenLoadReturnsTheSample :
    (sampleState.srcBase = sampleState.dstBase ∧ sampleState.srcLen = sampleState.dstLen ∧
      Completes .sts sampleState (ran .sts sampleState)) ∧
    (0xFFFF < 65536 ∧ SourceInside sampleState ∧ 2 * sampleState.index.toNat + 2 ≤ sampleState.srcLen.toNat ∧
      decode 0x008 = .ok .lds ∧
      (withActions sampleState [.memWrite 0x2006 2 0xFFFF, .regWrite 0x00 32 0x008]).pending =
        .memWrite (sampleState.srcBase.toNat + 2 * sampleState.index.toNat) 2 0xFFFF :: .regWrite 0x00 32 0x008 :: []) :=
  ⟨⟨rfl, rfl, rfl, by decide +kernel⟩, by decide, by decide, by decide, rfl, by decide⟩

theorem witness_StoresThenLoadsRoundTrips :
    sampleState.srcBase = sampleState.dstBase ∧ sampleState.srcLen = sampleState.dstLen ∧ DestInside sampleState ∧
    2 * (3 : Word).toNat + 2 ≤ sampleState.dstLen.toNat ∧
    (withActions sampleState (storeS 3 0x7FF ++ loadS 3)).pending = storeS 3 0x7FF ++ loadS 3 :=
  ⟨rfl, rfl, by decide, by decide, rfl⟩

theorem witness_Rgb2yccEqualsTheRationalSteps : ∃ t, exec .rgb2ycc { State.reset with r := 1023 } = .next t := ⟨_, rfl⟩

theorem witness_Rgb2yccBoundaryCases :
    let white := { State.reset with r := 940, g := 940, b := 940 }
    let black := { State.reset with r := 64, g := 64, b := 64 }
    (white.r = 940 ∧ white.g = 940 ∧ white.b = 940) ∧ (black.r = 64 ∧ black.g = 64 ∧ black.b = 64) := by decide

/-- Grey inputs at the two ends of the range. -/
theorem witness_Rgb2yccRangesAndGrey :
    let high := { State.reset with r := 1023, g := 1023, b := 1023 }
    (∃ t, exec .rgb2ycc high = .next t) ∧ high.r = high.g ∧ high.g = high.b ∧
    (∃ t, exec .rgb2ycc State.reset = .next t) ∧ State.reset.r = State.reset.g ∧ State.reset.g = State.reset.b :=
  ⟨⟨_, rfl⟩, rfl, rfl, ⟨_, rfl⟩, rfl, rfl⟩

/-- Ny = 587·500 = 293500: a luma tie. -/
theorem witness_ChromaNeverTiesLumaTiesRoundUp :
    let s := { State.reset with r := 64, g := 564, b := 64 }
    (∃ t, exec .rgb2ycc s = .next t) ∧
    (let ny := 299 * ((s.r.toNat : Int) - 64) + 587 * ((s.g.toNat : Int) - 64) + 114 * ((s.b.toNat : Int) - 64)
     ny % 1000 = 500 ∧ 0 ≤ ny ∧ ny < 876000) := ⟨⟨_, rfl⟩, by decide⟩

theorem witness_ResultRegistersAreWrittenByRgb2yccOnly :
    (Instr.lds ≠ .rgb2ycc ∧ ∃ t, exec .lds sampleState = .next t) ∧ (∃ t, exec .rgb2ycc sampleState = .next t) ∧
    ((hosted [.regWrite 0x00 32 0x008]).pending = .regWrite 0x00 32 0x008 :: [] ∧
      (∃ t, step (hosted [.regWrite 0x00 32 0x008]) = .next t) ∧ HostAction.regWrite 0x00 32 0x008 ≠ .reset ∧
      ∀ width c, HostAction.regWrite 0x00 32 0x008 = .regWrite 0x00 width c → decode c ≠ .ok .rgb2ycc) ∧
    (hosted [.reset]).pending = .reset :: [] := by
  refine ⟨⟨by decide, _, rfl⟩, ⟨_, rfl⟩, ⟨rfl, ⟨_, rfl⟩, by decide, fun width c h hd => ?_⟩, rfl⟩
  cases h
  exact absurd hd (by rw [test_decode_sample_and_colour.2.1]; exact fun h => by cases h)

/-! ### Frame commands: sources of exactly need_in bytes, destinations of exactly need_out -/

/-- Two lines of two pixels: 16 bytes planar or YUYV, 256 bytes v210. -/
theorem witness_UnpackV210Completes :
    FrameReady (transcoder v210Dirty 256 16 2 2 0) (convertSpec .v210 .planar true (transcoder v210Dirty 256 16 2 2 0)) :=
  ⟨⟨by decide, by decide, by decide, trivial⟩, by decide, by decide, by decide, by decide, by decide⟩

theorem witness_PackV210Completes :
    FrameReady (transcoder planar6 16 256 2 2 0) (convertSpec .planar .v210 true (transcoder planar6 16 256 2 2 0)) :=
  ⟨⟨by decide, by decide, by decide, trivial⟩, by decide, by decide, by decide, by decide, by decide⟩

theorem witness_PackYuyvCompletes :
    FrameReady (transcoder planar6 16 16 2 2 0) (convertSpec .planar .yuyv true (transcoder planar6 16 16 2 2 0)) :=
  ⟨⟨by decide, by decide, by decide, trivial⟩, by decide, by decide, by decide, by decide, by decide⟩

theorem witness_UnpackYuyvCompletes :
    FrameReady (transcoder planar6 16 16 2 2 0) (convertSpec .yuyv .planar true (transcoder planar6 16 16 2 2 0)) :=
  ⟨⟨by decide, by decide, by decide, trivial⟩, by decide, by decide, by decide, by decide, by decide⟩

/-- Each layout: TARGET = WIDTH, the smallest legal value, a pair more, and a second block of 48 pixels. -/
theorem witness_PadWidthCompletes :
    (((.padWidthYuyv true, .yuyv) : Instr × Layout) ∈
        [(.padWidthV210 true, .v210), (.padWidthPlanar true, .planar), (.padWidthYuyv true, .yuyv)] ∧
      FrameReady (transcoder planar6 16 16 2 2 2) (padSpec .yuyv true (transcoder planar6 16 16 2 2 2))) ∧
    (((.padWidthPlanar true, .planar) : Instr × Layout) ∈
        [(.padWidthV210 true, .v210), (.padWidthPlanar true, .planar), (.padWidthYuyv true, .yuyv)] ∧
      FrameReady (transcoder planar6 16 32 2 2 4) (padSpec .planar true (transcoder planar6 16 32 2 2 4))) ∧
    (((.padWidthV210 true, .v210) : Instr × Layout) ∈
        [(.padWidthV210 true, .v210), (.padWidthPlanar true, .planar), (.padWidthYuyv true, .yuyv)] ∧
      FrameReady (transcoder planar6 256 512 2 2 50) (padSpec .v210 true (transcoder planar6 256 512 2 2 50))) :=
  ⟨⟨by decide, ⟨by decide, by decide, by decide, by decide, by decide⟩, by decide, by decide, by decide, by decide,
     by decide⟩,
   ⟨by decide, ⟨by decide, by decide, by decide, by decide, by decide⟩, by decide, by decide, by decide, by decide,
     by decide⟩,
   ⟨by decide, ⟨by decide, by decide, by decide, by decide, by decide⟩, by decide, by decide, by decide, by decide,
     by decide⟩⟩

/-- Each layout: TARGET = 1, the smallest legal value, and a TARGET above HEIGHT. -/
theorem witness_CropPadHeightCompletes :
    (((.cropPadHeightYuyv true, .yuyv) : Instr × Layout) ∈
        [(.cropPadHeightV210 true, .v210), (.cropPadHeightPlanar true, .planar), (.cropPadHeightYuyv true, .yuyv)] ∧
      FrameReady (transcoder planar6 16 8 2 2 1) (cropSpec .yuyv true (transcoder planar6 16 8 2 2 1))) ∧
    (((.cropPadHeightPlanar true, .planar) : Instr × Layout) ∈
        [(.cropPadHeightV210 true, .v210), (.cropPadHeightPlanar true, .planar), (.cropPadHeightYuyv true, .yuyv)] ∧
      FrameReady (transcoder planar6 16 24 2 2 3) (cropSpec .planar true (transcoder planar6 16 24 2 2 3))) ∧
    (((.cropPadHeightV210 true, .v210) : Instr × Layout) ∈
        [(.cropPadHeightV210 true, .v210), (.cropPadHeightPlanar true, .planar), (.cropPadHeightYuyv true, .yuyv)] ∧
      FrameReady (transcoder planar6 256 128 2 2 1) (cropSpec .v210 true (transcoder planar6 256 128 2 2 1))) :=
  ⟨⟨by decide, ⟨by decide, by decide, by decide, (by decide : 1 ≤ (1 : Word).toNat)⟩, by decide, by decide, by decide,
     by decide, by decide⟩,
   ⟨by decide, ⟨by decide, by decide, by decide, (by decide : 1 ≤ (3 : Word).toNat)⟩, by decide, by decide, by decide,
     by decide, by decide⟩,
   ⟨by decide, ⟨by decide, by decide, by decide, (by decide : 1 ≤ (1 : Word).toNat)⟩, by decide, by decide, by decide,
     by decide, by decide⟩⟩

/-! ### Faults, at the first value that breaks each condition -/

/-- PACK_YUYV.S of a 2 × 1 frame with everything in order. -/
def orderly : State := transcoder planar6 8 8 2 1 0

theorem witness_FaultPriority :
    let f := convertSpec .planar .yuyv true orderly
    ((0x80000003 : Word) ∉ legalWords ∧
      (withActions orderly [.regWrite 0x00 32 0x80000003]).pending = .regWrite 0x00 32 0x80000003 :: []) ∧
    frameSpec (.packYuyv true) orderly = some f ∧ FrameReady orderly f ∧
    ¬ GeometryOk { orderly with width := 3 } f ∧
    (GeometryOk orderly f ∧ ¬ (SourceInside { orderly with srcBase := 0xFFF9 } ∧ DestInside orderly)) ∧
    (SourceInside { orderly with dstBase := 0x1007 } ∧ DestInside { orderly with dstBase := 0x1007 } ∧
      ¬ RegionsDisjoint { orderly with dstBase := 0x1007 }) ∧
    RegionsDisjoint { orderly with dstBase := 0x1008 } ∧
    ({ orderly with dstLen := 7 }.dstLen.toNat < f.needOut) ∧
    (f.strict = true ∧ { orderly with srcLen := 7 }.srcLen.toNat < f.needIn) ∧
    (¬ SourceInside { sampleState with srcBase := 0xFFF9 } ∧ ¬ DestInside { sampleState with dstBase := 0xFFF9 }) ∧
    (SourceInside sampleState ∧ DestInside sampleState ∧ 2 * sampleState.index.toNat + 2 ≤ sampleState.srcLen.toNat ∧
      2 * sampleState.index.toNat + 2 ≤ sampleState.dstLen.toNat) ∧
    (sampleState.srcLen.toNat < 2 * (4 : Word).toNat + 2 ∧ sampleState.dstLen.toNat < 2 * (4 : Word).toNat + 2) :=
  ⟨⟨by decide, rfl⟩, rfl,
   ⟨⟨by decide, by decide, by decide, trivial⟩, by decide, by decide, by decide, by decide, by decide⟩,
   fun h => absurd h.2.2.1 (by decide), ⟨⟨by decide, by decide, by decide, trivial⟩, fun h => absurd h.1 (by decide)⟩,
   ⟨by decide, by decide, by decide⟩, by decide, by decide, ⟨rfl, by decide⟩, ⟨by decide, by decide⟩,
   ⟨by decide, by decide, by decide, by decide⟩, ⟨by decide, by decide⟩⟩

theorem witness_FaultChangesNothingButStatus :
    (∃ t, exec (.packYuyv true) { orderly with width := 3 } = .next t ∧ t.status.err ≠ 0) ∧
    (hosted [.regWrite 0x00 32 0x009]).pending = .regWrite 0x00 32 0x009 :: [] ∧
    (∃ t, step (hosted [.regWrite 0x00 32 0x009]) = .next t ∧ t.status.err ≠ 0) :=
  ⟨⟨_, rfl, by decide +kernel⟩, rfl, ⟨_, rfl, by decide +kernel⟩⟩

/-- One byte short. -/
theorem witness_ShortSourceWarns :
    let s := { orderly with srcLen := 7 }
    frameSpec (.packYuyv false) s = some (convertSpec .planar .yuyv false s) ∧
    (convertSpec .planar .yuyv false s).strict = false ∧ FrameReady s (convertSpec .planar .yuyv false s) ∧
    s.srcLen.toNat < (convertSpec .planar .yuyv false s).needIn :=
  ⟨rfl, rfl, ⟨⟨by decide, by decide, by decide, trivial⟩, by decide, by decide, by decide, by decide, by decide⟩,
   by decide⟩

theorem witness_StickyBitsStayUntilReset :
    let s := withActions { State.reset with status := ⟨2, false, true, true⟩ } [.regWrite 0x00 32 0x007]
    s.pending = .regWrite 0x00 32 0x007 :: [] ∧ HostAction.regWrite 0x00 32 0x007 ≠ .reset ∧
    (∃ t, step s = .next t) ∧ s.status.faulted = true ∧ s.status.warns = true :=
  ⟨rfl, by decide, ⟨_, rfl⟩, rfl, rfl⟩

theorem witness_OutLenIsTheProducedSize :
    (∃ t, exec (.packYuyv true) orderly = .next t ∧ t.status.err = 0) ∧
    frameSpec (.packYuyv true) orderly = some (convertSpec .planar .yuyv true orderly) ∧
    (∃ t, exec (.packYuyv true) { orderly with srcLen := 7 } = .next t ∧ t.status.err ≠ 0) ∧
    (∃ t, exec .sts orderly = .next t) ∧ frameSpec .sts orderly = none :=
  ⟨⟨_, rfl, by decide +kernel⟩, rfl, ⟨_, rfl, by decide +kernel⟩, ⟨_, rfl⟩, rfl⟩

/-! ### Dependence, placement, memory -/

/-- A command that stores a byte; two memories that differ past the source; an empty source for each command. -/
theorem witness_FrameCommandsLeaveTheRestAlone :
    let u := { orderly with mem := Memory.writeBlock orderly.mem 0x1008 [9] }
    let e := transcoder [] 0 512 2 1 2
    (frameSpec (.packYuyv true) orderly = some (convertSpec .planar .yuyv true orderly) ∧
      exec (.packYuyv true) orderly = .next (ran (.packYuyv true) orderly) ∧
      (ran (.packYuyv true) orderly).mem.read 0x3000 ≠ orderly.mem.read 0x3000 ∧ 0 < orderly.srcLen.toNat) ∧
    (u = { orderly with mem := u.mem } ∧ (∀ k, k < 8 → u.mem.read (0x1000 + k) = orderly.mem.read (0x1000 + k)) ∧
      exec (.packYuyv true) u = .next (ran (.packYuyv true) u) ∧ (ran (.packYuyv true) orderly).status.err = 0) ∧
    (e.srcLen.toNat = 0 ∧ FrameReady e (convertSpec .v210 .planar false e) ∧
      FrameReady e (convertSpec .planar .v210 false e) ∧ FrameReady e (convertSpec .planar .yuyv false e) ∧
      FrameReady e (convertSpec .yuyv .planar false e) ∧
      (∀ fmt, FrameReady e (padSpec fmt false e) ∧ FrameReady e (cropSpec fmt false e))) := by
  refine ⟨⟨rfl, rfl, by decide +kernel, by decide⟩, ⟨rfl, by decide +kernel, rfl, by decide +kernel⟩, by decide, ?_, ?_, ?_, ?_,
    fun fmt => ⟨?_, ?_⟩⟩
  · exact ⟨⟨by decide, by decide, by decide, trivial⟩, by decide, by decide, by decide, by decide, by decide⟩
  · exact ⟨⟨by decide, by decide, by decide, trivial⟩, by decide, by decide, by decide, by decide, by decide⟩
  · exact ⟨⟨by decide, by decide, by decide, trivial⟩, by decide, by decide, by decide, by decide, by decide⟩
  · exact ⟨⟨by decide, by decide, by decide, trivial⟩, by decide, by decide, by decide, by decide, by decide⟩
  · exact ⟨⟨by decide, by decide, by decide, by decide, by decide⟩, by decide, by decide, by decide,
      by cases fmt <;> decide, fun h => by cases h⟩
  · exact ⟨⟨by decide, by decide, by decide, (by decide : 1 ≤ (2 : Word).toNat)⟩, by decide, by decide, by decide,
      by cases fmt <;> decide, fun h => by cases h⟩

/-- States that differ in every register the command does not read, and in memory past the source. -/
theorem witness_CommandsDependOnTheirOperandsOnly :
    let u := { orderly with
      target := 7, index := 5, smp := 6, r := 7, outLen := 9, mem := Memory.writeBlock orderly.mem 0x1008 [9] }
    let v := { sampleState with width := 3, y := 9, r := 8, status := ⟨1, false, true, true⟩ }
    (frameSpec (.packYuyv true) orderly = some (convertSpec .planar .yuyv true orderly) ∧ SameFrameOperands orderly u 8 ∧
      readsTarget (.packYuyv true) = false ∧ (∃ t, exec (.packYuyv true) orderly = .next t) ∧
      (∃ t, exec (.packYuyv true) u = .next t)) ∧
    (State.reset.r = orderly.r ∧ State.reset.g = orderly.g ∧ State.reset.b = orderly.b) ∧
    (sampleState.aw = v.aw ∧ sampleState.srcBase = v.srcBase ∧ sampleState.srcLen = v.srcLen ∧
      sampleState.index = v.index ∧ sampleState.mem = v.mem ∧ (∃ t, exec .lds v = .next t)) ∧
    (sampleState.dstBase = v.dstBase ∧ sampleState.dstLen = v.dstLen ∧ sampleState.smp = v.smp ∧
      (∃ t, exec .sts v = .next t)) :=
  ⟨⟨rfl, ⟨rfl, rfl, rfl, rfl, rfl, rfl, rfl, fun k hk _ => by revert k; decide +kernel⟩, rfl, ⟨_, rfl⟩, ⟨_, rfl⟩⟩,
   ⟨rfl, rfl, rfl⟩, ⟨rfl, rfl, rfl, rfl, rfl, ⟨_, rfl⟩⟩, ⟨rfl, rfl, rfl, ⟨_, rfl⟩⟩⟩

/-- The same source at an odd base, the destination at another odd base. -/
theorem witness_BufferPlacementDoesNotMatter :
    let u := { orderly with srcBase := 0x1101, dstBase := 0x3001, mem := Memory.writeBlock [] 0x1101 planar6 }
    frameSpec (.packYuyv true) orderly = some (convertSpec .planar .yuyv true orderly) ∧
    (orderly.width = u.width ∧ orderly.height = u.height ∧ orderly.target = u.target ∧ orderly.srcLen = u.srcLen) ∧
    (∀ k, k < orderly.srcLen.toNat → orderly.mem.read (0x1000 + k) = u.mem.read (0x1101 + k)) ∧
    Completes (.packYuyv true) orderly (ran (.packYuyv true) orderly) ∧
    Completes (.packYuyv true) u (ran (.packYuyv true) u) :=
  ⟨rfl, ⟨rfl, rfl, rfl, rfl⟩, by decide +kernel, ⟨rfl, by decide +kernel⟩, ⟨rfl, by decide +kernel⟩⟩

/-- A byte that a host write changes, and one that a command changes. -/
theorem witness_MemoryChangesOnlyWhereItMay :
    let s := hosted [.memWrite 5 1 7]
    let u := withActions sampleState [.regWrite 0x00 32 0x009]
    (s.pending = .memWrite 5 1 7 :: [] ∧ step s = .next (after (step s) s) ∧
      (after (step s) s).mem.read 5 ≠ s.mem.read 5) ∧
    (u.pending = .regWrite 0x00 32 0x009 :: [] ∧ step u = .next (after (step u) u) ∧
      (after (step u) u).mem.read 0x2007 ≠ u.mem.read 0x2007) :=
  ⟨⟨rfl, rfl, by decide +kernel⟩, ⟨rfl, rfl, by decide +kernel⟩⟩

/-! ### Round trips and chains -/

/-- Width 2, a v210 frame narrower than a group, all samples 0: memory with nothing listed holds its bytes. -/
theorem witness_DecodeAfterEncodeIsTheIdentity :
    let s := transcoder [] 128 0 2 1 0
    2 % 2 = 0 ∧ 2 ≤ 2 ∧ 1 ≤ 1 ∧ frameBytes .v210 2 1 ≤ s.srcLen.toNat ∧
    (∀ k (hk : k < (encodeFrame .v210 (fun _ _ _ => 0) 2 1).length),
      s.mem.read (s.srcBase.toNat + k) = (encodeFrame .v210 (fun _ _ _ => 0) 2 1)[k]) := by
  refine ⟨rfl, by decide, by decide, by decide, fun k hk => ?_⟩
  have h : encodeFrame .v210 (fun _ _ _ => 0) 2 1 = List.replicate 128 0 := by decide +kernel
  simp only [h, List.getElem_replicate]
  rfl

/-- The planar source of the round trips, 2 × 1, with clean containers. -/
def planarSource : State :=
  { transcoder [0x01, 0x01, 0x02, 0x02, 0x03, 0x03, 0x04, 0x00] 8 128 2 1 0 with dstBase := 0x3000 }

theorem witness_PlanarRoundTrips :
    let s := planarSource
    let v1 := ran (.packV210 true) s
    let v2 := ran (.unpackV210 true) (v1.chain 0x4000 8 s.width s.height s.target)
    let v3 := ran (.packYuyv true) (v2.chain 0x5000 8 s.width s.height s.target)
    let v4 := ran (.unpackYuyv true) (v3.chain 0x6000 8 s.width s.height s.target)
    let y1 := ran (.packYuyv true) s
    4 * s.width.toNat * s.height.toNat ≤ s.srcLen.toNat ∧ Completes (.packV210 true) s v1 ∧
    Completes (.unpackV210 true) (v1.chain 0x4000 8 s.width s.height s.target) v2 ∧
    Completes (.packYuyv true) (v2.chain 0x5000 8 s.width s.height s.target) v3 ∧
    Completes (.unpackYuyv true) (v3.chain 0x6000 8 s.width s.height s.target) v4 ∧
    Completes (.packYuyv true) s y1 ∧
    Completes (.unpackYuyv true) (y1.chain 0x4000 8 s.width s.height s.target)
      (ran (.unpackYuyv true) (y1.chain 0x4000 8 s.width s.height s.target)) ∧
    (∀ q, q < 2 * s.width.toNat * s.height.toNat → s.mem.readLE (s.srcBase.toNat + 2 * q) 2 < 1024) :=
  ⟨by decide, ⟨rfl, by decide +kernel⟩, ⟨rfl, by decide +kernel⟩, ⟨rfl, by decide +kernel⟩, ⟨rfl, by decide +kernel⟩,
   ⟨rfl, by decide +kernel⟩, ⟨rfl, by decide +kernel⟩, by decide +kernel⟩

theorem witness_PackedRoundTrips :
    let s := transcoder v210Dirty 128 24 2 1 0
    let y1 := ran (.unpackYuyv true) s
    let v1 := ran (.unpackV210 true) s
    (4 * s.width.toNat * s.height.toNat ≤ s.srcLen.toNat ∧ Completes (.unpackYuyv true) s y1 ∧
      Completes (.packYuyv true) (y1.chain 0x4000 8 s.width s.height s.target)
        (ran (.packYuyv true) (y1.chain 0x4000 8 s.width s.height s.target))) ∧
    (bytesOf .v210 s.width.toNat s.height.toNat ≤ s.srcLen.toNat ∧ Completes (.unpackV210 true) s v1 ∧
      Completes (.packV210 true) (v1.chain 0x4000 128 s.width s.height s.target)
        (ran (.packV210 true) (v1.chain 0x4000 128 s.width s.height s.target))) :=
  ⟨⟨by decide, ⟨rfl, by decide +kernel⟩, ⟨rfl, by decide +kernel⟩⟩,
   ⟨by decide, ⟨rfl, by decide +kernel⟩, ⟨rfl, by decide +kernel⟩⟩⟩

/-- Both routes from a 2 × 1 source of which five bytes are there to 4 × 2, with n bytes of room, complete. -/
def bothRoutes (pad crop : Instr) (n : Word) : Prop :=
  let s := transcoder planar6 5 0 2 1 0
  let a := { s with dstBase := 0x3000, dstLen := n, target := 4 }
  let b := { s with dstBase := 0x4000, dstLen := n, target := 2 }
  let t1 := ran pad a
  let u1 := ran crop b
  Completes pad a t1 ∧ Completes crop (t1.chain 0x5000 n 4 s.height 2) (ran crop (t1.chain 0x5000 n 4 s.height 2)) ∧
  Completes crop b u1 ∧ Completes pad (u1.chain 0x5000 n s.width 2 4) (ran pad (u1.chain 0x5000 n s.width 2 4))

/-- The three rows of the statement's list. -/
def padCropRows : List (Layout × Instr × Instr) :=
  [(.v210, .padWidthV210 false, .cropPadHeightV210 false), (.planar, .padWidthPlanar false, .cropPadHeightPlanar false),
   (.yuyv, .padWidthYuyv false, .cropPadHeightYuyv false)]

/-- Each layout, from a short source, with exactly the room the outputs need. -/
theorem witness_PadAndCropCommute :
    ((.v210, .padWidthV210 false, .cropPadHeightV210 false) ∈ padCropRows ∧
      bothRoutes (.padWidthV210 false) (.cropPadHeightV210 false) 256) ∧
    ((.planar, .padWidthPlanar false, .cropPadHeightPlanar false) ∈ padCropRows ∧
      bothRoutes (.padWidthPlanar false) (.cropPadHeightPlanar false) 32) ∧
    ((.yuyv, .padWidthYuyv false, .cropPadHeightYuyv false) ∈ padCropRows ∧
      bothRoutes (.padWidthYuyv false) (.cropPadHeightYuyv false) 32) :=
  ⟨⟨by decide, ⟨rfl, by decide +kernel⟩, ⟨rfl, by decide +kernel⟩, ⟨rfl, by decide +kernel⟩, ⟨rfl, by decide +kernel⟩⟩,
   ⟨by decide, ⟨rfl, by decide +kernel⟩, ⟨rfl, by decide +kernel⟩, ⟨rfl, by decide +kernel⟩, ⟨rfl, by decide +kernel⟩⟩,
   ⟨by decide, ⟨rfl, by decide +kernel⟩, ⟨rfl, by decide +kernel⟩, ⟨rfl, by decide +kernel⟩, ⟨rfl, by decide +kernel⟩⟩⟩

theorem witness_V210ToYuyvShowsTheSource :
    let s := withActions (transcoder v210Dirty 128 0 2 1 0) (v210ToYuyv 0x4000 8 8 0x3000 8)
    let s1 := { s with dstBase := 0x4000, dstLen := 8 }
    let s2 := { s with srcBase := 0x4000, srcLen := 8, dstBase := 0x3000, dstLen := 8 }
    FrameReady s1 (convertSpec .v210 .planar false s1) ∧ FrameReady s2 (convertSpec .planar .yuyv false s2) ∧
    s.pending = v210ToYuyv 0x4000 8 (BitVec.ofNat 32 (4 * s.width.toNat * s.height.toNat)) 0x3000 8 :=
  ⟨⟨⟨by decide, by decide, by decide, trivial⟩, by decide, by decide, by decide, by decide, by decide⟩,
   ⟨⟨by decide, by decide, by decide, trivial⟩, by decide, by decide, by decide, by decide, by decide⟩, rfl⟩

/-! ### Invariants -/

theorem witness_ResetMeetsTheInvariant :
    Memory.wf [(0, 1), (0xFFFF, 2)] ∧ Memory.inside [(0, 1), (0xFFFF, 2)] 16 ∧ Config.legalAW 16 := by decide

/-- A state with the invariant, memory at both ends, whose next step is a command. -/
theorem witness_EveryStepKeepsTheInvariant :
    let s := withActions (State.powerOn [(0, 1), (0xFFFF, 2)] 16) [.regWrite 0x00 32 0x007]
    s.Inv ∧ ∃ t, step s = .next t := ⟨⟨by decide, by decide, by decide, by decide, by decide⟩, ⟨_, rfl⟩⟩

/-- Every kind of action, the memory ones at the top of memory. -/
theorem witness_LegalHostActionsNeverStopTheMachine :
    State.Safe (withActions (State.powerOn [] 16)
      [.memWrite 0xFFFC 4 0xFFFFFFFF, .regWrite 0x00 32 0, .regRead 0x44 32, .memRead 0xFFFF 1, .reset]) := by decide

theorem witness_CanonicalMemoriesThatReadAlikeAreEqual :
    Memory.wf [(3, 5)] ∧ Memory.wf (Memory.writeBlock [(3, 5), (4, 1)] 4 [0]) ∧
    ∀ a, a < 8 → Memory.read [(3, 5)] a = Memory.read (Memory.writeBlock [(3, 5), (4, 1)] 4 [0]) a := by decide

end Sys2Proof.Tests
end

/-! The host port and the registers (10_state.md): what a command can write, what the step that is no command leaves
alone, and the statements about the registers settled from both. -/

section
namespace Sys2Proof.Machine

/-! ## What a command writes -/

/-- The only parts of the state a command can write are SMP, the three results, OUT_LEN, STATUS and memory. -/
theorem exec_writes_only {i : Instr} {s t : State} (h : exec i s = .next t) :
    t = { s with
      smp := t.smp, y := t.y, cb := t.cb, cr := t.cr, outLen := t.outLen, status := t.status, mem := t.mem } := by
  rcases exec_cases h with
    ⟨k, -, -, rfl⟩ | ⟨-, rfl⟩ | ⟨-, -, -, rfl⟩ | ⟨-, -, -, rfl⟩ | ⟨fin, fout, T, strict, -, -, -, -, rfl⟩
  all_goals rfl

theorem exec_keeps_cmd {i : Instr} {s t : State} (h : exec i s = .next t) : t.cmd = s.cmd := by
  rw [exec_writes_only h]

theorem exec_keeps_rgb {i : Instr} {s t : State} (h : exec i s = .next t) : t.r = s.r ∧ t.g = s.g ∧ t.b = s.b := by
  rw [exec_writes_only h]
  exact ⟨rfl, rfl, rfl⟩

theorem exec_keeps_smp {i : Instr} {s t : State} (hi : i ≠ .lds) (h : exec i s = .next t) : t.smp = s.smp := by
  rcases exec_cases h with
    ⟨k, -, -, rfl⟩ | ⟨-, rfl⟩ | ⟨hlds, -, -, -⟩ | ⟨-, -, -, rfl⟩ | ⟨fin, fout, T, strict, -, -, -, -, rfl⟩
  case inr.inr.inl => exact absurd hlds hi
  all_goals rfl

theorem exec_keeps_results {i : Instr} {s t : State} (hi : i ≠ .rgb2ycc) (h : exec i s = .next t) :
    t.y = s.y ∧ t.cb = s.cb ∧ t.cr = s.cr := by
  rcases exec_cases h with
    ⟨k, -, -, rfl⟩ | ⟨hrgb, -⟩ | ⟨-, -, -, rfl⟩ | ⟨-, -, -, rfl⟩ | ⟨fin, fout, T, strict, -, -, -, -, rfl⟩
  case inr.inl => exact absurd hrgb hi
  all_goals exact ⟨rfl, rfl, rfl⟩

/-- The results of RGB2YCC lie in the ranges of 10_state.md R30. -/
theorem exec_rgb2ycc_ranges {s t : State} (h : exec .rgb2ycc s = .next t) :
    (64 ≤ t.y.toNat ∧ t.y.toNat ≤ 940) ∧ (64 ≤ t.cb.toNat ∧ t.cb.toNat ≤ 960) ∧
    (64 ≤ t.cr.toNat ∧ t.cr.toNat ≤ 960) := by
  obtain rfl := Host.Outcome.next.inj h
  have hy := ycc_luma_toNat s.r s.g s.b
  have hcb := ycc_cb_toNat s.r s.g s.b
  have hcr := ycc_cr_toNat s.r s.g s.b
  have hyr := yccLuma_range s.r.toNat s.g.toNat s.b.toNat
  have hcbr := yccChroma_range (cbSum s.r.toNat s.g.toNat s.b.toNat)
  have hcrr := yccChroma_range (crSum s.r.toNat s.g.toNat s.b.toNat)
  simp only [State.complete_y, State.complete_cb, State.complete_cr]
  omega

/-- LDS where it completes: SMP is the container at SRC_BASE + 2·INDEX, reduced to ten bits. -/
theorem completes_lds_smp {s t : State} (h : Completes .lds s t) :
    t.smp = containerSample (s.mem.readLE (ldsAddress s) 2) := by
  obtain ⟨hex, herr⟩ := h
  cases hf : ldsFault s with
  | some k =>
    rw [exec_lds_of_fault hf] at hex
    obtain rfl := Host.Outcome.next.inj hex
    exact absurd herr k.code_ne_zero
  | none =>
    rw [exec_lds_of_ok hf] at hex
    obtain rfl := Host.Outcome.next.inj hex
    rfl

/-! ## STATUS and OUT_LEN after a command -/

/-- What a command does to STATUS and OUT_LEN: it faults; or it completes and has no short flag and no output; or it is
a frame command that completes, with the short flag and the output size of its FrameSpec. -/
theorem exec_status_outLen {i : Instr} {s t : State} (h : exec i s = .next t) :
    (∃ k, t.status = s.status.faultedWith k ∧ t.outLen = s.outLen) ∨
    (frameSpec i s = none ∧ t.status = s.status.completed false ∧ t.outLen = s.outLen) ∨
    (∃ f, frameSpec i s = some f ∧ f.needOut ≤ s.dstLen.toNat ∧
      t.status = s.status.completed (decide (s.srcLen.toNat < f.needIn)) ∧ t.outLen = BitVec.ofNat 32 f.needOut) := by
  rcases exec_cases h with
    ⟨k, -, -, rfl⟩ | ⟨rfl, rfl⟩ | ⟨rfl, -, -, rfl⟩ | ⟨rfl, -, -, rfl⟩ | ⟨fin, fout, T, strict, -, -, hspec, hready, rfl⟩
  case inl => exact .inl ⟨k, rfl, rfl⟩
  case inr.inr.inr.inr => exact .inr (.inr ⟨_, hspec, hready.fits, rfl, rfl⟩)
  all_goals exact .inr (.inl ⟨rfl, rfl, rfl⟩)

/-- STATUS after a command, by its ERR field (10_state.md R23). -/
theorem exec_status_by_err {i : Instr} {s t : State} (h : exec i s = .next t) :
    (t.status.err = 0 →
      (frameSpec i s = none ∧ t.status = s.status.completed false) ∨
      ∃ f, frameSpec i s = some f ∧ t.status = s.status.completed (decide (s.srcLen.toNat < f.needIn))) ∧
    (t.status.err ≠ 0 →
      t.status = { err := t.status.err, warn := false, warns := s.status.warns, faulted := true }) := by
  rcases exec_status_outLen h with ⟨k, hst, -⟩ | ⟨hf, hst, -⟩ | ⟨f, hf, -, hst, -⟩
  · rw [hst]
    exact ⟨fun h0 => absurd h0 k.code_ne_zero, fun _ => rfl⟩
  · exact ⟨fun _ => .inl ⟨hf, hst⟩, fun hne => absurd (by rw [hst]; rfl) hne⟩
  · exact ⟨fun _ => .inr ⟨f, hf, hst⟩, fun hne => absurd (by rw [hst]; rfl) hne⟩

/-! ## Words that do not decode -/

theorem encode_mem_legalWords (i : Instr) : encode i ∈ legalWords := by
  cases i
  case rgb2ycc | lds | sts => decide
  all_goals rename_i strict; cases strict <;> decide

/-- The decoder rejects every word outside the list of 30_encoding.md R105. -/
theorem decode_error_of_not_mem {c : Word} (hc : c ∉ legalWords) : ∃ e, decode c = .error e := by
  cases hd : decode c with
  | error e => exact ⟨e, rfl⟩
  | ok i =>
    have hword : encode i = c := by rw [encode, command_of_decode hd, Command.toWord_ofWord]
    exact absurd (hword ▸ encode_mem_legalWords i) hc

theorem runCommand_of_ok {c : Word} {i : Instr} (hd : decode c = .ok i) (s : State) : runCommand c s = exec i s := by
  simp only [runCommand, hd]

theorem runCommand_of_error {c : Word} {e : DecodeError} (hd : decode c = .error e) (s : State) :
    runCommand c s = .next (faulted s 5) := by
  simp only [runCommand, hd]; rfl

theorem runCommand_keeps_cmd {c : Word} {s t : State} (h : runCommand c s = .next t) : t.cmd = s.cmd := by
  rcases runCommand_next h with ⟨i, -, hex⟩ | ⟨e, -, rfl⟩
  · exact exec_keeps_cmd hex
  · rfl

/-- Only the word of RGB2YCC lets a write to CMD change the results. -/
theorem runCommand_keeps_results {c : Word} {s t : State} (hc : decode c ≠ .ok .rgb2ycc)
    (h : runCommand c s = .next t) : t.y = s.y ∧ t.cb = s.cb ∧ t.cr = s.cr := by
  rcases runCommand_next h with ⟨i, hd, hex⟩ | ⟨e, -, rfl⟩
  · exact exec_keeps_results (fun hi => hc (hi ▸ hd)) hex
  · exact ⟨rfl, rfl, rfl⟩

/-! ## Host actions that run no command -/

/-- A write to a register other than CMD leaves CMD and the read-only registers (10_state.md R22, R36). -/
theorem writeReg_keeps {reg : Reg} (hr : reg ≠ .cmd) (s : State) (v : Word) :
    (s.writeReg reg v).cmd = s.cmd ∧ (s.writeReg reg v).status = s.status ∧ (s.writeReg reg v).y = s.y ∧
    (s.writeReg reg v).cb = s.cb ∧ (s.writeReg reg v).cr = s.cr := by
  cases reg
  case cmd => contradiction
  all_goals exact ⟨rfl, rfl, rfl, rfl, rfl⟩

/-- A host action that neither writes CMD nor resets leaves CMD, STATUS and the results. -/
theorem step_without_command {s t : State} {a : HostAction} {rest : List HostAction} (hp : s.pending = a :: rest)
    (h : step s = .next t) (hreset : a ≠ .reset) (hcmd : ∀ c, a ≠ .regWrite 0x00 32 c) :
    t.cmd = s.cmd ∧ t.status = s.status ∧ t.y = s.y ∧ t.cb = s.cb ∧ t.cr = s.cr := by
  rcases step_cases h with ⟨hnil, -⟩ | ⟨a', rest', hp', hcases⟩
  · rw [hp] at hnil; cases hnil
  obtain ⟨rfl, rfl⟩ := List.cons.inj (hp.symm.trans hp')
  rcases hcases with
    ⟨c, ha, -⟩ | ⟨reg, v, hr, -, rfl⟩ | ⟨reg, -, rfl⟩ | ⟨addr, n, v, -, -, -, -, rfl⟩ | ⟨addr, n, -, -, -, rfl⟩ | ⟨ha, -⟩
  case inl => exact absurd ha (hcmd c)
  case inr.inl => exact writeReg_keeps hr (s.taken rest) v
  case inr.inr.inr.inr.inr => exact absurd ha hreset
  all_goals exact ⟨rfl, rfl, rfl, rfl, rfl⟩

/-! ## Registers as the host reads and writes them -/

theorem readReg_cleared (m : Memory) (aw : Nat) (p : List HostAction) (reg : Reg) :
    (State.cleared m aw p).readReg reg = 0 := by
  cases reg
  case status => exact (by decide : (⟨0, false, false, false⟩ : Status).toWord = 0)
  all_goals rfl

/-- `mask10` (10_state.md R29) as arithmetic on the written value. -/
theorem setWidth_ten_eq (v : Word) : v.setWidth 10 = BitVec.ofNat 10 (v.toNat % 1024) := by
  apply BitVec.eq_of_toNat_eq
  simp

/-- A sample register reads back zero-extended (10_state.md R29). -/
theorem toNat_setWidth_sample (x : Sample) : (x.setWidth 32).toNat = x.toNat :=
  BitVec.toNat_setWidth_of_le (by decide)

theorem containerSample_toNat (c : Nat) : (containerSample c).toNat = c % 1024 := BitVec.toNat_ofNat c 10

/-- The five read-only registers ignore a write (10_state.md R36). -/
theorem writeReg_readOnly {reg : Reg} (hr : reg ∈ [Reg.status, .y, .cb, .cr, .outLen]) (s : State) (v : Word) :
    s.writeReg reg v = s := by
  cases reg
  case status | y | cb | cr | outLen => rfl
  all_goals simp at hr

theorem step_writeReg_readOnly {s : State} {reg : Reg} {rest : List HostAction} {v : Word}
    (hr : reg ∈ [Reg.status, .y, .cb, .cr, .outLen]) (hp : s.pending = .regWrite (regOffset reg) 32 v :: rest) :
    step s = .next (s.taken rest) := by
  rw [step_writeReg (fun hc => by simp [hc] at hr) hp, writeReg_readOnly hr]

/-- A register access that R37 gives no meaning is refused, whether it writes or reads. -/
theorem step_refused_of_illegal {s : State} {rest : List HostAction} {off width : Nat} {v : Word}
    (hl : regAccessLegal off width = false)
    (hp : s.pending = .regWrite off width v :: rest ∨ s.pending = .regRead off width :: rest) :
    ∃ why, step s = .refused why := by
  obtain ⟨e, he⟩ := regAccess_error_of_illegal hl
  rcases hp with hp | hp
  all_goals exact ⟨e, by rw [step_cons hp]; simp only [hostAction, he]⟩

/-! ## The statements -/

/-- Settles O4: the command runs inside the write, and neither a command nor another action but RESET reaches CMD. -/
theorem writeToCmdRunsTheDecodedCommand : Obligations.WriteToCmdRunsTheDecodedCommand := by
  refine ⟨fun s c rest hp => ⟨fun i hd => ?_, fun e hd => ?_, fun t h => ?_⟩, fun s rest hp => ?_,
    fun i s t => exec_keeps_cmd, fun s t a rest hp h hreset hcmd => (step_without_command hp h hreset hcmd).1⟩
  · rw [step_writeCmd hp, runCommand_of_ok hd]
  · rw [step_writeCmd hp, runCommand_of_error hd]
  · rw [step_writeCmd hp] at h
    exact runCommand_keeps_cmd h
  · exact step_readReg (reg := .cmd) hp

/-- Settles O7, from the two STATUS updates a command can make and the actions that make none. -/
theorem statusFollowsTheCommand : Obligations.StatusFollowsTheCommand := by
  refine ⟨fun i s t h => ⟨fun h0 => ?_, (exec_status_by_err h).2⟩, fun s t c rest hp hc h => ?_,
    fun s t a rest hp h hreset hcmd => ?_, fun s rest hp => ⟨_, step_reset hp, rfl⟩,
    fun s => Status.toNat_toWord s.status⟩
  · rcases (exec_status_by_err h).1 h0 with ⟨hf, hst⟩ | ⟨f, hf, hst⟩
    all_goals simp only [hf, hst]; rfl
  · obtain ⟨e, hd⟩ := decode_error_of_not_mem hc
    rw [step_writeCmd hp, runCommand_of_error hd] at h
    obtain rfl := Host.Outcome.next.inj h
    rfl
  · obtain ⟨-, hstatus, -⟩ := step_without_command hp h hreset hcmd
    exact hstatus

/-- Settles O10: `mask10` on the four write arms, and for commands what `exec` writes at all. -/
theorem dataRegistersKeepTenBits : Obligations.DataRegistersKeepTenBits := by
  refine ⟨fun s rest v => ?_, fun i s t h => ?_, fun s t h => ?_⟩
  · simp only [← setWidth_ten_eq]
    exact ⟨fun hp => step_writeReg (reg := .smp) (by decide) hp, fun hp => step_writeReg (reg := .r) (by decide) hp,
      fun hp => step_writeReg (reg := .g) (by decide) hp, fun hp => step_writeReg (reg := .b) (by decide) hp,
      toNat_setWidth_sample s.smp, toNat_setWidth_sample s.r, toNat_setWidth_sample s.g, toNat_setWidth_sample s.b⟩
  · obtain ⟨hr, hg, hb⟩ := exec_keeps_rgb h
    exact ⟨hr, hg, hb, fun hi => exec_keeps_smp hi h⟩
  · rw [completes_lds_smp h, containerSample_toNat]; rfl

/-- Settles O29: a write to CMD can reach the results only through RGB2YCC, whose integer form is clamped. -/
theorem resultRegistersAreWrittenByRgb2yccOnly : Obligations.ResultRegistersAreWrittenByRgb2yccOnly := by
  refine ⟨fun i s t => exec_keeps_results, fun s t => exec_rgb2ycc_ranges, fun s t a rest hp h hreset hno => ?_,
    fun s rest hp => ⟨_, step_reset hp, rfl, rfl, rfl⟩, rfl, rfl, rfl⟩
  by_cases hcmd : ∃ c, a = .regWrite 0x00 32 c
  · obtain ⟨c, rfl⟩ := hcmd
    rw [step_writeCmd hp] at h
    simpa using runCommand_keeps_results (hno 32 c rfl) h
  · obtain ⟨-, -, hresults⟩ := step_without_command hp h hreset (not_exists.1 hcmd)
    exact hresults

/-- Settles O42: the size fits the register, since a command that completes had room for its output. -/
theorem outLenIsTheProducedSize : Obligations.OutLenIsTheProducedSize := by
  intro i s t h
  rcases exec_status_outLen h with ⟨k, hst, hout⟩ | ⟨hf, hst, hout⟩ | ⟨f, hf, hfits, hst, hout⟩
  · exact ⟨fun f _ h0 => absurd (by simpa [hst] using h0) k.code_ne_zero, fun _ => hout, fun _ => hout⟩
  · exact ⟨fun f hf' => by simp [hf] at hf', fun _ => hout, fun _ => hout⟩
  · refine ⟨fun f' hf' _ => ?_, fun hne => absurd (by rw [hst]; rfl) hne, fun hnone => by simp [hf] at hnone⟩
    obtain rfl := Option.some.inj (hf.symm.trans hf')
    have hlt : f.needOut < 2 ^ 32 := lt_of_le_of_lt hfits s.dstLen.isLt
    rw [hout, BitVec.toNat_ofNat, Nat.mod_eq_of_lt hlt]

/-- Settles O1, from the state RESET and power-on share. -/
theorem resetLeavesEveryRegisterZero : Obligations.ResetLeavesEveryRegisterZero :=
  ⟨fun s rest hp => ⟨_, step_reset hp, readReg_cleared s.mem s.aw rest⟩, readReg_cleared [] Config.defaultAW []⟩

/-- Settles O11: each offset named is that of a read-only register, and every mapped read changes the reply alone. -/
theorem readOnlyRegistersIgnoreWrites : Obligations.ReadOnlyRegistersIgnoreWrites := by
  refine ⟨fun s rest v off hoff hp => ?_, fun s rest off h4 hlt hp => ?_⟩
  · have hreg : ∃ reg ∈ [Reg.status, .y, .cb, .cr, .outLen], regOffset reg = off := List.mem_map.1 hoff
    obtain ⟨reg, hr, rfl⟩ := hreg
    exact step_writeReg_readOnly hr hp
  · obtain ⟨reg, hacc⟩ := regAccess_of_legal (off := off) (width := 32) (by simp [regAccessLegal, h4, hlt])
    obtain ⟨-, rfl⟩ := regAccess_ok hacc
    exact ⟨s.readReg reg, step_readReg hp⟩

/-- Settles O12: the three conditions together are the failure of `regAccessLegal`. -/
theorem offMapRegisterAccessesAreRefused : Obligations.OffMapRegisterAccessesAreRefused := by
  intro s rest off width v hwhy hp
  have hillegal : regAccessLegal off width = false := by
    rw [← Bool.not_eq_true]
    simp only [regAccessLegal, Bool.and_eq_true, decide_eq_true_eq]
    omega
  exact step_refused_of_illegal hillegal hp

end Sys2Proof.Machine
end

/-! Sample access (40_sample_access.md): the check each fault of LDS and STS comes from, the bytes of a little-endian
store, and the statements about the two commands settled from them. -/

section
namespace Sys2Proof.Machine

/-! ## The faults of LDS and STS -/

theorem ldsFault_of_outside {s : State} (hout : ¬ SourceInside s) : ldsFault s = some .regionError :=
  if_pos (Bool.eq_false_of_not_eq_true fun hwf => hout ((regionWellFormed_iff ..).1 hwf))

theorem ldsFault_of_short {s : State} (hin : SourceInside s) (hshort : 2 * s.index.toNat + 2 > s.srcLen.toNat) :
    ldsFault s = some .shortRead := by
  rw [ldsFault, if_neg (by simpa [regionWellFormed_iff] using hin), if_pos hshort]

theorem stsFault_of_outside {s : State} (hout : ¬ DestInside s) : stsFault s = some .regionError :=
  if_pos (Bool.eq_false_of_not_eq_true fun hwf => hout ((regionWellFormed_iff ..).1 hwf))

theorem stsFault_of_short {s : State} (hin : DestInside s) (hshort : 2 * s.index.toNat + 2 > s.dstLen.toNat) :
    stsFault s = some .addressingError := by
  rw [stsFault, if_neg (by simpa [regionWellFormed_iff] using hin), if_pos hshort]

/-! ## The commits of LDS and STS -/

/-- Taking ten bits of a container is reducing it modulo 1024 (20_memory.md R62). -/
theorem containerSample_eq_ofNat_mod (c : Nat) : containerSample c = BitVec.ofNat 10 (c % 1024) := by
  apply BitVec.eq_of_toNat_eq
  rw [containerSample_toNat, BitVec.toNat_ofNat, Nat.mod_mod]

theorem ldsCommit_eq (s : State) :
    ldsCommit s = { done s with smp := BitVec.ofNat 10 (s.mem.readLE (ldsAddress s) 2 % 1024) } := by
  rw [ldsCommit, complete_eq_done, containerSample_eq_ofNat_mod]; rfl

/-- STS writes STATUS and memory only. -/
theorem stsCommit_eq (s : State) : stsCommit s = { done s with mem := (stsCommit s).mem } := by
  rw [stsCommit, complete_eq_done]; rfl

/-! ## The bytes of a little-endian store -/

theorem leBytes_getElem_toNat {n v i : Nat} (hi : i < (leBytes n v).length) :
    (leBytes n v)[i].toNat = v / 256 ^ i % 256 := by
  induction n generalizing v i with
  | zero => simp at hi
  | succ n ih =>
    cases i with
    | zero => simp [leBytes]
    | succ i =>
      have htail : i < (leBytes n (v / 256)).length := by simpa using hi
      calc (leBytes (n + 1) v)[i + 1].toNat
          = (leBytes n (v / 256))[i].toNat := rfl
        _ = v / 256 / 256 ^ i % 256 := ih htail
        _ = v / 256 ^ (i + 1) % 256 := by rw [Nat.div_div_eq_div_mul, Nat.pow_succ']

/-- Byte i of `MemWrite(a, n, v)` is digit i of v to the base 256 (00_scope.md R10). -/
theorem Memory.toNat_read_writeLE {m : Memory} {a n v i : Nat} (hi : i < n) :
    ((m.writeLE a n v).read (a + i)).toNat = v / 256 ^ i % 256 := by
  have hlen : i < (leBytes n v).length := by simpa using hi
  rw [Memory.writeLE, Memory.read_writeBlock_inside hlen, leBytes_getElem_toNat]

/-- The two bytes of a stored sample (40_sample_access.md R131); the high one is below 4, so nothing of it is lost. -/
theorem Memory.toNat_read_writeLE_sample (m : Memory) (a : Nat) (x : Sample) :
    ((m.writeLE a 2 x.toNat).read a).toNat = x.toNat % 256 ∧
    ((m.writeLE a 2 x.toNat).read (a + 1)).toNat = x.toNat / 256 := by
  have hlow := Memory.toNat_read_writeLE (m := m) (a := a) (v := x.toNat) (show 0 < 2 by decide)
  have hhigh := Memory.toNat_read_writeLE (m := m) (a := a) (v := x.toNat) (show 1 < 2 by decide)
  have hx : x.toNat < 1024 := x.isLt
  rw [Nat.add_zero, Nat.pow_zero, Nat.div_one] at hlow
  exact ⟨hlow, by omega⟩

/-! ## The obligations -/

/-- Settles O20, by the three outcomes of LDS's checks. -/
theorem ldsLoadsOneSample : Obligations.LdsLoadsOneSample := by
  refine fun s => ⟨fun hout => ?_, fun hin hshort => ?_, fun hin hfits => ?_⟩
  · exact exec_lds_of_fault (ldsFault_of_outside hout)
  · exact exec_lds_of_fault (ldsFault_of_short hin hshort)
  · rw [exec_lds_of_ok ((ldsFault_none_iff s).2 ⟨hin, hfits⟩), ldsCommit_eq, ldsAddress]

/-- Settles O21, by the three outcomes of STS's checks and the bytes of its store. -/
theorem stsStoresOneSample : Obligations.StsStoresOneSample := by
  refine fun s => ⟨fun hout => ?_, fun hin hshort => ?_, fun hin hfits => ?_⟩
  · exact exec_sts_of_fault (stsFault_of_outside hout)
  · exact exec_sts_of_fault (stsFault_of_short hin hshort)
  · refine ⟨stsCommit s, exec_sts_of_ok ((stsFault_none_iff s).2 ⟨hin, hfits⟩), stsCommit_eq s, ?_⟩
    rintro a rfl
    obtain ⟨hlow, hhigh⟩ := Memory.toNat_read_writeLE_sample s.mem (stsAddress s) s.smp
    exact ⟨rfl, hlow, hhigh, fun x hx => Memory.read_writeLE_outside hx⟩

end Sys2Proof.Machine
end

/-! Exceptions (60_exceptions.md): what a command leaves when it does not complete, the check a frame command's fault
comes from, the words that are not legal, and the statements about faults settled from them. -/

section
namespace Sys2Proof.Machine

/-! ## A command faults or completes -/

/-- A command either takes a fault, which is STATUS alone and neither DegenerateRange nor IllegalCommand, or leaves
ERR = 0 (60_exceptions.md R230, R235). -/
theorem exec_faults_or_completes {i : Instr} {s t : State} (h : exec i s = .next t) :
    (∃ k, k ≠ FaultCode.degenerateRange ∧ k ≠ FaultCode.illegalCommand ∧ t = faulted s k.code) ∨
    t.status.err = 0 := by
  rcases exec_cases h with
    ⟨k, hk4, hk5, rfl⟩ | ⟨-, rfl⟩ | ⟨-, -, -, rfl⟩ | ⟨-, -, -, rfl⟩ | ⟨fin, fout, T, strict, -, -, -, -, rfl⟩
  case inl => exact .inl ⟨k, hk4, hk5, raiseFault_eq_faulted s k⟩
  all_goals exact .inr rfl

theorem exec_eq_faulted {i : Instr} {s t : State} (h : exec i s = .next t) (herr : t.status.err ≠ 0) :
    t = faulted s t.status.err := by
  rcases exec_faults_or_completes h with ⟨k, -, -, rfl⟩ | h0
  · rfl
  · exact absurd h0 herr

/-- An illegal word is a fault like any other: it too changes STATUS alone. -/
theorem runCommand_eq_faulted {c : Word} {s t : State} (h : runCommand c s = .next t) (herr : t.status.err ≠ 0) :
    t = faulted s t.status.err := by
  rcases runCommand_next h with ⟨i, -, hex⟩ | ⟨e, -, rfl⟩
  · exact exec_eq_faulted hex herr
  · rfl

theorem FaultCode.toNat_code_le (k : FaultCode) : k.code.toNat ≤ 8 := by cases k <;> decide

theorem FaultCode.code_ne_four {k : FaultCode} (hk : k ≠ .degenerateRange) : k.code ≠ 4 := by
  cases k
  case degenerateRange => contradiction
  all_goals decide

/-! ## The first failing check of a frame command -/

open Classical in
/-- The checks of a frame command in the order of 60_exceptions.md R241, on the conditions of 41_format_conversion.md
R150 as the claims state them: the first that fails gives the code. -/
noncomputable def firstFault (s : State) (f : FrameSpec) : Option FaultCode :=
  if ¬ GeometryOk s f then some .invalidGeometry
  else if ¬ (SourceInside s ∧ DestInside s) then some .regionError
  else if ¬ RegionsDisjoint s then some .overlapError
  else if s.dstLen.toNat < f.needOut then some .dstOverflow
  else if f.strict = true ∧ s.srcLen.toNat < f.needIn then some .shortRead
  else none

theorem firstFault_of_geometry {s : State} {f : FrameSpec} (hg : ¬ GeometryOk s f) :
    firstFault s f = some .invalidGeometry := if_pos hg

theorem firstFault_of_region {s : State} {f : FrameSpec} (hg : GeometryOk s f)
    (hin : ¬ (SourceInside s ∧ DestInside s)) : firstFault s f = some .regionError := by
  rw [firstFault, if_neg (not_not.2 hg), if_pos hin]

theorem firstFault_of_overlap {s : State} {f : FrameSpec} (hg : GeometryOk s f) (hin : SourceInside s ∧ DestInside s)
    (hov : ¬ RegionsDisjoint s) : firstFault s f = some .overlapError := by
  rw [firstFault, if_neg (not_not.2 hg), if_neg (not_not.2 hin), if_pos hov]

theorem firstFault_of_overflow {s : State} {f : FrameSpec} (hg : GeometryOk s f) (hin : SourceInside s ∧ DestInside s)
    (hdj : RegionsDisjoint s) (hout : s.dstLen.toNat < f.needOut) : firstFault s f = some .dstOverflow := by
  rw [firstFault, if_neg (not_not.2 hg), if_neg (not_not.2 hin), if_neg (not_not.2 hdj), if_pos hout]

theorem firstFault_of_short {s : State} {f : FrameSpec} (hg : GeometryOk s f) (hin : SourceInside s ∧ DestInside s)
    (hdj : RegionsDisjoint s) (hfits : f.needOut ≤ s.dstLen.toNat) (hstrict : f.strict = true)
    (hshort : s.srcLen.toNat < f.needIn) : firstFault s f = some .shortRead := by
  rw [firstFault, if_neg (not_not.2 hg), if_neg (not_not.2 hin), if_neg (not_not.2 hdj), if_neg (Nat.not_lt.2 hfits),
    if_pos ⟨hstrict, hshort⟩]

theorem firstFault_of_ready {s : State} {f : FrameSpec} (hr : FrameReady s f) : firstFault s f = none := by
  rw [firstFault, if_neg (not_not.2 hr.geometry), if_neg (not_not.2 ⟨hr.source, hr.dest⟩),
    if_neg (not_not.2 hr.disjoint), if_neg (Nat.not_lt.2 hr.fits),
    if_neg fun ⟨hstrict, hshort⟩ => Nat.not_lt.2 (hr.long hstrict) hshort]

/-- The model's checks are those of R241, in that order. -/
theorem frameFault_eq_firstFault (fin fout : Layout) (T : Transform) (strict : Bool) (s : State) :
    frameFault fin fout T strict s = firstFault s (specOf fin fout T strict s) := by
  cases hk : frameFault fin fout T strict s with
  | none => exact (firstFault_of_ready ((frameFault_none_iff ..).1 hk)).symm
  | some k =>
    rcases frameFault_some hk with
      ⟨rfl, hg⟩ | ⟨rfl, hg, hin⟩ | ⟨rfl, hg, hs, hd, hov⟩ | ⟨rfl, hg, hs, hd, hdj, hout⟩ |
      ⟨rfl, hg, hs, hd, hdj, hfits, hstrict, hshort⟩
    · exact (firstFault_of_geometry hg).symm
    · exact (firstFault_of_region hg hin).symm
    · exact (firstFault_of_overlap hg ⟨hs, hd⟩ hov).symm
    · exact (firstFault_of_overflow hg ⟨hs, hd⟩ hdj hout).symm
    · exact (firstFault_of_short hg ⟨hs, hd⟩ hdj hfits hstrict hshort).symm

theorem exec_of_firstFault {i : Instr} {s : State} {f : FrameSpec} {k : FaultCode} (hf : frameSpec i s = some f)
    (hk : firstFault s f = some k) : exec i s = .next (faulted s k.code) := by
  obtain ⟨fin, fout, T, -, -, hex, hspec⟩ := exec_frame hf
  rw [hex, frameCommand, frameFault_eq_firstFault, hspec, hk, State.checked_some, raiseFault_eq_faulted]

theorem exec_of_ready {i : Instr} {s : State} {f : FrameSpec} (hf : frameSpec i s = some f) (hr : FrameReady s f) :
    ∃ t, exec i s = .next t ∧ t.status.err = 0 := by
  obtain ⟨fin, fout, T, -, -, hex, hspec⟩ := exec_frame hf
  exact ⟨frameCommit fin fout T s, by rw [hex, frameCommand_of_ready (hspec ▸ hr)], rfl⟩

/-! ## Words that are not legal -/

/-- Legality of a command's fields as arithmetic on their values. -/
theorem wellFormed_iff_toNat (f : Command) :
    f.wellFormed = true ↔
      f.zero.toNat = 0 ∧ (1 ≤ f.op.toNat ∧ f.op.toNat ≤ 9) ∧ f.fmt.toNat ≠ 3 ∧
      (f.fmt.toNat = 0 ∨ f.op.toNat = 5 ∨ f.op.toNat = 6) ∧
      (f.strict.toNat = 0 ∨ ¬ (f.op.toNat = 7 ∨ f.op.toNat = 8 ∨ f.op.toNat = 9)) := by
  simp [Command.wellFormed, Command.zeroClear, Command.opAssigned, Command.fmtAssigned, Command.fmtApplies,
    Command.strictApplies, BitVec.toNat_eq, and_assoc, or_assoc]

/-- The list of 30_encoding.md R106, on the bits of a word, says that a test on the word's fields fails. -/
theorem illegalWord_iff_not_wellFormed (c : Word) : illegalWord c ↔ ¬ (Command.ofWord c).wellFormed = true := by
  have hc : c.toNat = (Command.ofWord c).toWord.toNat := by rw [Command.toWord_ofWord]
  rw [Command.toNat_toWord] at hc
  rw [wellFormed_iff_toNat]
  generalize Command.ofWord c = f at hc ⊢
  have hop : f.op.toNat < 256 := f.op.isLt
  have hstrict : f.strict.toNat < 2 := f.strict.isLt
  have hfmt : f.fmt.toNat < 4 := f.fmt.isLt
  have hopBits : c.toNat % 256 = f.op.toNat := by omega
  have hstrictBit : c.toNat / 256 % 2 = f.strict.toNat := by omega
  have hfmtBits : c.toNat / 512 % 4 = f.fmt.toNat := by omega
  simp only [illegalWord, hopBits, hstrictBit, hfmtBits]
  omega

theorem mem_legalWords_iff_decodes (c : Word) : c ∈ legalWords ↔ ∃ i, decode c = .ok i := by
  constructor
  · intro hc
    have hall : (legalWords.all fun w => (Command.ofWord w).wellFormed) = true := rfl
    exact (decode_accepts_iff_wellFormed c).2 (List.all_eq_true.1 hall c hc)
  · rintro ⟨i, hd⟩
    by_contra hc
    obtain ⟨e, he⟩ := decode_error_of_not_mem hc
    rw [hd] at he; cases he

/-- The conditions of 30_encoding.md R106 describe the words outside the list of R105. -/
theorem illegalWord_iff_not_mem (c : Word) : illegalWord c ↔ c ∉ legalWords := by
  rw [illegalWord_iff_not_wellFormed, mem_legalWords_iff_decodes, decode_accepts_iff_wellFormed]

/-- A word outside the list, written to CMD, is stored there and faults with IllegalCommand (60_exceptions.md R236). -/
theorem step_writeCmd_of_not_mem {s : State} {c : Word} {rest : List HostAction} (hc : c ∉ legalWords)
    (hp : s.pending = .regWrite 0x00 32 c :: rest) : step s = .next (faulted { s.taken rest with cmd := c } 5) := by
  obtain ⟨e, hd⟩ := decode_error_of_not_mem hc
  rw [step_writeCmd hp, runCommand_of_error hd]

/-! ## The obligations -/

/-- Settles O37: the checks of a frame command through `firstFault`, those of LDS and STS as O20 and O21 give them. -/
theorem faultPriority : Obligations.FaultPriority := by
  refine ⟨fun s c rest => step_writeCmd_of_not_mem, fun i s f hf => ⟨?_, ?_, ?_, ?_, ?_, exec_of_ready hf⟩, fun s => ?_⟩
  · exact fun hg => exec_of_firstFault hf (firstFault_of_geometry hg)
  · exact fun hg hin => exec_of_firstFault hf (firstFault_of_region hg hin)
  · exact fun hg hs hd hov => exec_of_firstFault hf (firstFault_of_overlap hg ⟨hs, hd⟩ hov)
  · exact fun hg hs hd hdj hout => exec_of_firstFault hf (firstFault_of_overflow hg ⟨hs, hd⟩ hdj hout)
  · exact fun hg hs hd hdj hfits hstrict hshort =>
      exec_of_firstFault hf (firstFault_of_short hg ⟨hs, hd⟩ hdj hfits hstrict hshort)
  · obtain ⟨hldsOut, hldsShort, hldsOk⟩ := ldsLoadsOneSample s
    obtain ⟨hstsOut, hstsShort, -⟩ := stsStoresOneSample s
    exact ⟨hldsOut, hldsShort, fun hin hfits => ⟨_, hldsOk hin hfits, rfl⟩, hstsOut, hstsShort,
      fun hin hfits => ⟨_, exec_sts_of_ok ((stsFault_none_iff s).2 ⟨hin, hfits⟩), rfl⟩⟩

/-- Settles O18, from the agreement of the two descriptions of legality and the decoder's rejection. -/
theorem illegalWordsFault : Obligations.IllegalWordsFault :=
  ⟨illegalWord_iff_not_mem, fun _ c _ hc => step_writeCmd_of_not_mem ((illegalWord_iff_not_mem c).1 hc)⟩

/-- Settles O38: the commit of every command leaves ERR = 0, so ERR ≠ 0 means that a fault was raised. -/
theorem faultChangesNothingButStatus : Obligations.FaultChangesNothingButStatus := by
  refine ⟨fun i s t => exec_eq_faulted, fun s t c rest hp h => ?_⟩
  rw [step_writeCmd hp] at h
  exact runCommand_eq_faulted h

/-- Settles O39, by the faults a command can raise (60_exceptions.md R231, R235); that it answers is R230. -/
theorem noCommandReportsAnUnassignedCode : Obligations.NoCommandReportsAnUnassignedCode := by
  intro i s
  obtain ⟨t, h⟩ := exec_answers_next i s
  refine ⟨t, h, ?_⟩
  rcases exec_faults_or_completes h with ⟨k, hk, -, rfl⟩ | h0
  · exact ⟨k.toNat_code_le, FaultCode.code_ne_four hk⟩
  · rw [h0]; decide

end Sys2Proof.Machine
end

/-! Command words (30_encoding.md): the decoder and the encoder are inverse to each other, each row of the table of R105
selects its words, and the statements about the encoding settled from that. -/

section
namespace Sys2Proof

theorem decode_encode (i : Instr) : decode (encode i) = .ok i := decode_toWord_command i

/-- An accepted word is the one the encoder writes for its instruction: no two words stand for one instruction. -/
theorem eq_encode_of_decode {w : Word} {i : Instr} (h : decode w = .ok i) : w = encode i := by
  rw [encode, command_of_decode h, Command.toWord_ofWord]

theorem Instr.command_zero (i : Instr) : i.command.zero = 0 := by cases i <;> rfl

end Sys2Proof

namespace Sys2Proof.Machine

/-- STRICT is the one bit that the mask of a frame command's row leaves free. -/
theorem eq_or_eq_of_strict_mask {w m : Word} (h : w &&& 0xFFFFFEFF = m) : w = m ∨ w = m ||| 0x100 := by
  subst h
  have hsplit : ∀ b : Bool, w.getLsbD 8 = b → w = (w &&& 0xFFFFFEFF) ||| (if b then 0x100 else 0) := by
    rintro b rfl
    apply BitVec.eq_of_getLsbD_eq
    intro i hi
    interval_cases i <;> cases w.getLsbD 8 <;> simp
  cases hb : w.getLsbD 8 with
  | false => exact .inl (by simpa using hsplit false hb)
  | true => exact .inr (hsplit true hb)

/-- The row of a command with a STRICT bit selects the two words of that command and no other. -/
theorem row_selects_of_strict {mk : Bool → Instr} {w : Word} (k : Bool)
    (hrow : ∀ strict, rowPattern (mk strict) = (0xFFFFFEFF, encode (mk false)))
    (hbit : encode (mk true) = encode (mk false) ||| 0x100)
    (h : w &&& (rowPattern (mk k)).1 = (rowPattern (mk k)).2) :
    ∃ j, w = encode j ∧ rowPattern j = rowPattern (mk k) := by
  rw [hrow k] at h
  rcases eq_or_eq_of_strict_mask h with hw | hw
  · exact ⟨mk false, hw, by rw [hrow, hrow]⟩
  · exact ⟨mk true, hw.trans hbit.symm, by rw [hrow, hrow]⟩

/-- The row of RGB2YCC, LDS or STS fixes all 32 bits. -/
theorem row_selects_of_full_mask {i : Instr} {w : Word} (hrow : rowPattern i = (0xFFFFFFFF, encode i))
    (h : w &&& (rowPattern i).1 = (rowPattern i).2) : ∃ j, w = encode j ∧ rowPattern j = rowPattern i := by
  rw [hrow] at h
  have hall : w &&& 0xFFFFFFFF = w := BitVec.and_allOnes
  exact ⟨i, hall.symm.trans h, rfl⟩

theorem row_selects {i : Instr} {w : Word} (h : w &&& (rowPattern i).1 = (rowPattern i).2) :
    ∃ j, w = encode j ∧ rowPattern j = rowPattern i := by
  cases i with
  | unpackV210 k => exact row_selects_of_strict (mk := .unpackV210) k (fun _ => rfl) rfl h
  | packV210 k => exact row_selects_of_strict (mk := .packV210) k (fun _ => rfl) rfl h
  | packYuyv k => exact row_selects_of_strict (mk := .packYuyv) k (fun _ => rfl) rfl h
  | unpackYuyv k => exact row_selects_of_strict (mk := .unpackYuyv) k (fun _ => rfl) rfl h
  | padWidthV210 k => exact row_selects_of_strict (mk := .padWidthV210) k (fun _ => rfl) rfl h
  | padWidthPlanar k => exact row_selects_of_strict (mk := .padWidthPlanar) k (fun _ => rfl) rfl h
  | padWidthYuyv k => exact row_selects_of_strict (mk := .padWidthYuyv) k (fun _ => rfl) rfl h
  | cropPadHeightV210 k => exact row_selects_of_strict (mk := .cropPadHeightV210) k (fun _ => rfl) rfl h
  | cropPadHeightPlanar k => exact row_selects_of_strict (mk := .cropPadHeightPlanar) k (fun _ => rfl) rfl h
  | cropPadHeightYuyv k => exact row_selects_of_strict (mk := .cropPadHeightYuyv) k (fun _ => rfl) rfl h
  | rgb2ycc => exact row_selects_of_full_mask rfl h
  | lds => exact row_selects_of_full_mask rfl h
  | sts => exact row_selects_of_full_mask rfl h

theorem encode_matches_row (i : Instr) : encode i &&& (rowPattern i).1 = (rowPattern i).2 := by
  cases i
  case rgb2ycc | lds | sts => rfl
  all_goals rename_i strict; cases strict <;> rfl

/-- Settles O16: the encoder writes back what the decoder read, and the decoder reads back what the encoder wrote. -/
theorem decodeIsTheInverseOfEncode : Obligations.DecodeIsTheInverseOfEncode :=
  fun _ i => ⟨eq_encode_of_decode, fun hw => hw ▸ decode_encode i⟩

/-- Settles O17: an accepted word is the encoding of its instruction, and the rows select encodings only. -/
theorem legalWordsAreTheTwentyThree : Obligations.LegalWordsAreTheTwentyThree := by
  refine ⟨rfl, by decide, fun w => (mem_legalWords_iff_decodes w).symm, fun w i hd => ?_, fun w i hrow => ?_,
    fun i => ?_⟩
  · rw [eq_encode_of_decode hd, encode_matches_row]
  · obtain ⟨j, rfl, hj⟩ := row_selects hrow
    exact ⟨j, decode_encode j, hj⟩
  · rw [encode, Command.toNat_toWord, i.command_zero]; rfl

/-- Settles O19, by running the decoder on each word. -/
theorem sampleWordsDecode : Obligations.SampleWordsDecode :=
  ⟨rfl, rfl, rfl, rfl, rfl, rfl, rfl, rfl, rfl, rfl, rfl, rfl⟩

end Sys2Proof.Machine
end

/-! The host's actions (10_state.md section 5): which of them answer, with what next state, what they leave alone, and
the statements about a step settled from that. -/

section
namespace Sys2Proof.Machine

/-! ## Registers -/

/-- The word of an instruction pattern, placed as the next action, is what the next step writes to CMD (log 1). -/
theorem step_withFetchWord (s : State) (w : Nat) :
    step (s.withFetchWord 32 w) =
      runCommand (BitVec.ofNat 32 w) { s with cmd := BitVec.ofNat 32 w, reply := none } := by
  have hword : BitVec.ofNat 32 (w % 2 ^ 32) = BitVec.ofNat 32 w := by apply BitVec.eq_of_toNat_eq; simp
  have hp : (s.withFetchWord 32 w).pending = .regWrite 0x00 32 (BitVec.ofNat 32 w) :: s.pending := by
    rw [← hword]; rfl
  rw [step_writeCmd hp]; rfl

/-! ## Memory actions -/

/-- `MemRead` is the sum of 00_scope.md R10. -/
theorem Memory.readLE_eq_sum (m : Memory) (a n : Nat) :
    m.readLE a n = ((List.range n).map fun k => (m.read (a + k)).toNat * 256 ^ k).sum := by
  induction n generalizing a with
  | zero => rfl
  | succ n ih =>
    have hterm : ∀ k, (m.read (a + (k + 1))).toNat * 256 ^ (k + 1) =
        256 * ((m.read (a + 1 + k)).toNat * 256 ^ k) := by
      intro k
      rw [show a + (k + 1) = a + 1 + k by omega, pow_succ]; ring
    rw [Memory.readLE, ih (a + 1), List.range_succ_eq_map, List.map_cons, List.sum_cons, List.map_map,
      ← List.sum_map_mul_left]
    simp [Function.comp_def, hterm]

/-- A word of memory fits the reply. -/
theorem Memory.readLE_lt_word {m : Memory} {a n : Nat} (hn : n ≤ 4) : m.readLE a n < 2 ^ 32 :=
  calc m.readLE a n < 256 ^ n := m.readLE_lt a n
    _ ≤ 256 ^ 4 := Nat.pow_le_pow_right (by decide) hn
    _ = 2 ^ 32 := by decide

/-- A memory action outside the three conditions of 10_state.md R44 is refused, whatever it would do. -/
theorem memAccess_refused {s : State} {a n v : Nat} (act : State → State)
    (h : n ∉ [1, 2, 4] ∨ 2 ^ s.aw < a + n ∨ 256 ^ n ≤ v) : ∃ why, memAccess s a n v act = .refused why := by
  simp only [List.mem_cons, List.not_mem_nil, or_false] at h
  exact memAccess_of_illegal (by omega)

/-! ## What a step leaves alone -/

theorem exec_keeps_sticky {i : Instr} {s t : State} (h : exec i s = .next t) :
    (s.status.faulted = true → t.status.faulted = true) ∧ (s.status.warns = true → t.status.warns = true) := by
  rcases exec_status_outLen h with ⟨k, hst, -⟩ | ⟨-, hst, -⟩ | ⟨f, -, -, hst, -⟩
  all_goals simp +contextual [hst]

theorem runCommand_keeps_sticky {c : Word} {s t : State} (h : runCommand c s = .next t) :
    (s.status.faulted = true → t.status.faulted = true) ∧ (s.status.warns = true → t.status.warns = true) := by
  rcases runCommand_next h with ⟨i, -, hex⟩ | ⟨e, -, rfl⟩
  · exact exec_keeps_sticky hex
  · exact ⟨fun _ => rfl, id⟩

/-- A command leaves every byte outside the destination region (10_state.md section 4). -/
theorem exec_read_outside_dest {i : Instr} {s t : State} {x : Nat} (h : exec i s = .next t)
    (hx : x < s.dstBase.toNat ∨ s.dstBase.toNat + s.dstLen.toNat ≤ x) : t.mem.read x = s.mem.read x := by
  rcases exec_cases h with
    ⟨k, -, -, rfl⟩ | ⟨-, rfl⟩ | ⟨-, -, -, rfl⟩ | ⟨-, -, hfits, rfl⟩ | ⟨fin, fout, T, strict, -, -, -, hready, rfl⟩
  case inr.inr.inr.inl =>
    exact Memory.read_writeLE_outside (by simp only [stsAddress]; omega)
  case inr.inr.inr.inr =>
    have hfits := hready.fits
    exact frameCommit_read_outside strict (by omega)
  all_goals rfl

theorem runCommand_read_outside_dest {c : Word} {s t : State} {x : Nat} (h : runCommand c s = .next t)
    (hx : x < s.dstBase.toNat ∨ s.dstBase.toNat + s.dstLen.toNat ≤ x) : t.mem.read x = s.mem.read x := by
  rcases runCommand_next h with ⟨i, -, hex⟩ | ⟨e, -, rfl⟩
  · exact exec_read_outside_dest hex hx
  · rfl

/-- A command writes neither AW nor the host's list. -/
theorem runCommand_keeps_input {c : Word} {s t : State} (h : runCommand c s = .next t) :
    t.aw = s.aw ∧ t.pending = s.pending := by
  rcases runCommand_next h with ⟨i, -, hex⟩ | ⟨e, -, rfl⟩
  · rw [exec_writes_only hex]
    exact ⟨rfl, rfl⟩
  · exact ⟨rfl, rfl⟩

theorem writeReg_keeps_input (reg : Reg) (s : State) (v : Word) :
    (s.writeReg reg v).aw = s.aw ∧ (s.writeReg reg v).mem = s.mem ∧ (s.writeReg reg v).pending = s.pending := by
  cases reg <;> exact ⟨rfl, rfl, rfl⟩

/-- A step keeps AW (log 2) and takes the oldest action off the list (log 1). -/
theorem step_keeps_input {s t : State} (h : step s = .next t) : t.aw = s.aw ∧ t.pending = s.pending.tail := by
  rcases step_cases h with ⟨hp, rfl⟩ | ⟨a, rest, hp, hcases⟩
  · exact ⟨rfl, by rw [hp]; rfl⟩
  rw [hp, List.tail_cons]
  rcases hcases with
    ⟨c, -, hrun⟩ | ⟨reg, v, -, -, rfl⟩ | ⟨reg, -, rfl⟩ | ⟨addr, n, v, -, -, -, -, rfl⟩ |
    ⟨addr, n, -, -, -, rfl⟩ | ⟨-, rfl⟩
  case inl => exact runCommand_keeps_input hrun
  case inr.inl =>
    obtain ⟨haw, -, hpending⟩ := writeReg_keeps_input reg (s.taken rest) v
    exact ⟨haw, hpending⟩
  all_goals exact ⟨rfl, rfl⟩

/-! ## Safe runs -/

theorem hostWriteReg_answers_next (reg : Reg) (v : Word) (s : State) : ∃ t, hostWriteReg reg v s = .next t := by
  cases reg
  case cmd => exact runCommand_answers_next v _
  all_goals exact ⟨_, rfl⟩

theorem memAccess_answers_next {s : State} {a n v : Nat} (act : State → State)
    (hl : memAccessLegal s.aw a n = true) (hv : v < 256 ^ n) : ∃ t, memAccess s a n v act = .next t := by
  simp only [memAccessLegal, Bool.and_eq_true, Bool.or_eq_true, beq_iff_eq, decide_eq_true_eq, or_assoc] at hl
  obtain ⟨hn, ha⟩ := hl
  exact ⟨_, memAccess_of_legal hn hv ha⟩

/-- Every action that is a step of the machine answers a next state (10_state.md R37, R44). -/
theorem hostAction_answers_next {a : HostAction} {s : State} (h : a.wellFormed s.aw = true) :
    ∃ t, hostAction a s = .next t := by
  cases a with
  | regWrite off width v =>
    obtain ⟨reg, hreg⟩ := regAccess_of_legal h
    simp only [hostAction, hreg]
    exact hostWriteReg_answers_next reg v s
  | regRead off width =>
    obtain ⟨reg, hreg⟩ := regAccess_of_legal h
    simp only [hostAction, hreg]
    exact ⟨_, rfl⟩
  | memWrite addr n v =>
    simp only [HostAction.wellFormed, Bool.and_eq_true, decide_eq_true_eq] at h
    rw [hostAction]
    exact memAccess_answers_next _ h.1 h.2
  | memRead addr n =>
    rw [hostAction]
    exact memAccess_answers_next _ h (Nat.pow_pos (by decide))
  | reset => exact ⟨_, rfl⟩

theorem step_of_safe {s : State} (hs : s.Safe) : ∃ t, step s = .next t ∧ t.Safe := by
  have hanswers : ∃ t, step s = .next t := by
    cases hp : s.pending with
    | nil => exact ⟨s, step_nil hp⟩
    | cons a rest =>
      rw [step_cons hp]
      exact hostAction_answers_next (hs a (by simp [hp]))
  obtain ⟨t, ht⟩ := hanswers
  obtain ⟨haw, hpending⟩ := step_keeps_input ht
  refine ⟨t, ht, fun a ha => ?_⟩
  rw [haw]
  exact hs a (List.mem_of_mem_tail (hpending ▸ ha))

/-! ## The statements -/

/-- Settles O2, from the one next state of RESET. -/
theorem resetKeepsMemory : Obligations.ResetKeepsMemory :=
  fun _ _ hp => ⟨step_reset hp, fun _ => rfl⟩

/-- Settles O5: the placed word is written to CMD, and a word that decodes runs its instruction. -/
theorem stepRunsTheFetchedWord : Obligations.StepRunsTheFetchedWord := by
  intro s w i hd
  rw [step_withFetchWord, runCommand_of_ok hd]

/-- Settles O6. -/
theorem noPendingActionStandsStill : Obligations.NoPendingActionStandsStill := fun _ => step_nil

/-- Settles O8: the list names each register of the map by its offset, with the number its reading stands for. -/
theorem registerReadsFollowTheMap : Obligations.RegisterReadsFollowTheMap := by
  intro s rest off v hmem hp
  have hreg : ∃ reg ∈ registerMap, (regOffset reg, (s.readReg reg).toNat) = (off, v) :=
    List.mem_map.1 (by
      simp only [registerMap, List.map, State.readReg, Status.toNat_toWord, toNat_setWidth_sample]
      exact hmem)
  obtain ⟨reg, -, hpair⟩ := hreg
  obtain ⟨rfl, rfl⟩ := Prod.mk.inj hpair
  rw [step_readReg hp, BitVec.ofNat_toNat, BitVec.setWidth_eq]
  exact ⟨rfl, (s.readReg reg).isLt⟩

/-- Settles O9: each offset is that of a register other than CMD, and the write is the register's own. -/
theorem registerWritesStoreTheValue : Obligations.RegisterWritesStoreTheValue := fun _ _ _ =>
  ⟨step_writeReg (reg := .srcBase) (by decide), step_writeReg (reg := .srcLen) (by decide),
    step_writeReg (reg := .dstBase) (by decide), step_writeReg (reg := .dstLen) (by decide),
    step_writeReg (reg := .width) (by decide), step_writeReg (reg := .height) (by decide),
    step_writeReg (reg := .target) (by decide), step_writeReg (reg := .index) (by decide)⟩

/-- Settles O13: both memory actions pass the same checks, MR with the value 0, which always fits. -/
theorem illegalMemoryActionsStop : Obligations.IllegalMemoryActionsStop := by
  refine fun s rest a n v => ⟨fun hp h => ?_, fun hp h => ?_⟩
  · rw [step_cons hp, hostAction]
    exact memAccess_refused _ h
  · rw [step_cons hp, hostAction]
    exact memAccess_refused _ (h.imp_right .inl)

/-- Settles O14: the bytes of the store are the digits of v to the base 256. -/
theorem hostMemoryWriteStoresItsBytes : Obligations.HostMemoryWriteStoresItsBytes := by
  intro s rest a n v hn hv ha hp
  exact ⟨_, step_memWrite hp (by simpa using hn) hv ha, rfl, fun k hk => Memory.toNat_read_writeLE hk,
    fun x hx => Memory.read_writeLE_outside hx⟩

/-- Settles O15: at most four bytes are read, so their value fits the reply. -/
theorem hostMemoryReadReturnsItsBytes : Obligations.HostMemoryReadReturnsItsBytes := by
  intro s rest a n hn ha hp
  have hn' : n = 1 ∨ n = 2 ∨ n = 4 := by simpa using hn
  refine ⟨_, step_memRead hp hn' ha, ?_⟩
  rw [BitVec.toNat_ofNat, Nat.mod_eq_of_lt (Memory.readLE_lt_word (by omega)), Memory.readLE_eq_sum]

/-- Settles O41: only a command changes STATUS, and neither of its two updates clears a sticky bit. -/
theorem stickyBitsStayUntilReset : Obligations.StickyBitsStayUntilReset := by
  intro s t a rest hp hreset h
  by_cases hcmd : ∃ c, a = .regWrite 0x00 32 c
  · obtain ⟨c, rfl⟩ := hcmd
    rw [step_writeCmd hp] at h
    have hsticky := runCommand_keeps_sticky h
    exact hsticky
  · obtain ⟨-, hstatus, -⟩ := step_without_command hp h hreset (not_exists.1 hcmd)
    rw [hstatus]
    exact ⟨id, id⟩

/-- Settles O46: of the host's actions only `MW` and the write to CMD reach memory, each inside its own bytes. -/
theorem memoryChangesOnlyWhereItMay : Obligations.MemoryChangesOnlyWhereItMay := by
  intro s t a rest hp h x hx
  rcases step_cases h with ⟨hnil, -⟩ | ⟨a', rest', hp', hcases⟩
  · rw [hp] at hnil; cases hnil
  obtain ⟨rfl, rfl⟩ := List.cons.inj (hp.symm.trans hp')
  rcases hcases with
    ⟨c, rfl, hrun⟩ | ⟨reg, v, -, -, rfl⟩ | ⟨reg, -, rfl⟩ | ⟨addr, n, v, rfl, -, -, -, rfl⟩ |
    ⟨addr, n, -, -, -, rfl⟩ | ⟨-, rfl⟩
  · refine .inr ⟨c, rfl, ?_⟩
    have hout := runCommand_read_outside_dest (x := x) hrun
    by_contra hc
    exact hx (hout (by show x < s.dstBase.toNat ∨ s.dstBase.toNat + s.dstLen.toNat ≤ x; omega))
  · obtain ⟨-, hmem, -⟩ := writeReg_keeps_input reg (s.taken rest) v
    exact absurd (by rw [hmem]; rfl) hx
  · exact absurd rfl hx
  · refine .inl ⟨addr, n, v, rfl, ?_⟩
    by_contra hc
    exact hx (Memory.read_writeLE_outside (by omega))
  · exact absurd rfl hx
  · exact absurd rfl hx

/-- Settles O54: a safe state steps to a safe state, and a run is steps. -/
theorem legalHostActionsNeverStopTheMachine : Obligations.LegalHostActionsNeverStopTheMachine := by
  intro s hs n
  induction n generalizing s with
  | zero => exact ⟨s, run_zero s, hs⟩
  | succ n ih =>
    obtain ⟨t, ht, hsafe⟩ := step_of_safe hs
    rw [run_succ ht]
    exact ih t hsafe

end Sys2Proof.Machine
end

/-! The invariant (10_state.md sections 2, 4, 6): what the updates of STATUS and of memory keep of it, that reset
meets it and every step keeps it, and that the canonical form of memory is one form. -/

section
namespace Sys2Proof.Machine

/-! ## STATUS -/

theorem Status.legal_completed (st : Status) (w : Bool) : (st.completed w).legal :=
  ⟨(by decide : (0 : BitVec 4).toNat ≤ 8), (by decide : (0 : BitVec 4) ≠ 4), fun h => absurd rfl h,
    fun h => by simpa using Or.inr h⟩

theorem Status.legal_faultedWith (st : Status) {k : FaultCode} (hk : k ≠ .degenerateRange) :
    (st.faultedWith k).legal :=
  ⟨k.toNat_code_le, FaultCode.code_ne_four hk, fun _ => ⟨rfl, rfl⟩, fun h => by cases h⟩

/-! ## The invariant through the updates -/

/-- The invariant speaks of memory, AW, STATUS and the results only. -/
theorem State.Inv.congr {s t : State} (hs : s.Inv) (hmem : t.mem = s.mem) (haw : t.aw = s.aw)
    (hst : t.status = s.status) (hy : t.y = s.y) (hcb : t.cb = s.cb) (hcr : t.cr = s.cr) : t.Inv where
  memWf := hmem ▸ hs.memWf
  memInside := by rw [hmem, haw]; exact hs.memInside
  aw := haw ▸ hs.aw
  status := hst ▸ hs.status
  results := by rw [State.resultsLegal, hy, hcb, hcr]; exact hs.results

theorem State.Inv.raiseFault {s : State} (hs : s.Inv) {k : FaultCode} (hk : k ≠ .degenerateRange) :
    (s.raiseFault k).Inv :=
  { hs with status := s.status.legal_faultedWith hk }

/-- A command that completes with its results unchanged and its bytes inside memory keeps the invariant. -/
theorem State.Inv.of_completed {s t : State} {w : Bool} (hs : s.Inv) (hwf : t.mem.wf) (hin : t.mem.inside s.aw)
    (haw : t.aw = s.aw) (hst : t.status = s.status.completed w) (hy : t.y = s.y) (hcb : t.cb = s.cb)
    (hcr : t.cr = s.cr) : t.Inv where
  memWf := hwf
  memInside := haw ▸ hin
  aw := haw ▸ hs.aw
  status := hst ▸ s.status.legal_completed w
  results := by rw [State.resultsLegal, hy, hcb, hcr]; exact hs.results

theorem State.Inv.cleared {m : Memory} {aw : Nat} (p : List HostAction) (hwf : m.wf) (hin : m.inside aw)
    (haw : Config.legalAW aw) : (State.cleared m aw p).Inv where
  memWf := hwf
  memInside := hin
  aw := haw
  status := (by decide : Status.legal ⟨0, false, false, false⟩)
  results := .inl ⟨rfl, rfl, rfl⟩

/-- A frame command writes inside the destination region, which lies inside memory. -/
theorem frameCommit_mem_inside {fin fout : Layout} {T : Transform} {strict : Bool} {s : State}
    (hready : FrameReady s (specOf fin fout T strict s)) (hin : s.mem.inside s.aw) :
    (frameCommit fin fout T s).mem.inside s.aw := by
  have hfits := hready.fits
  have hdest := hready.dest
  rw [frameCommit_mem]
  refine Memory.inside_writeBlock hin ?_
  rw [encodeFrame_length]
  exact le_trans (Nat.add_le_add_left hfits _) hdest

/-! ## The invariant through a step -/

theorem exec_keeps_inv {i : Instr} {s t : State} (hs : s.Inv) (h : exec i s = .next t) : t.Inv := by
  rcases exec_cases h with
    ⟨k, hk, -, rfl⟩ | ⟨rfl, rfl⟩ | ⟨-, -, -, rfl⟩ | ⟨-, hdest, hfits, rfl⟩ |
    ⟨fin, fout, T, strict, -, -, -, hready, rfl⟩
  · exact hs.raiseFault hk
  · exact { hs with status := s.status.legal_completed false, results := .inr (exec_rgb2ycc_ranges h) }
  · exact hs.of_completed hs.memWf hs.memInside rfl rfl rfl rfl rfl
  · have hbytes : stsAddress s + 2 ≤ 2 ^ s.aw := by simp only [stsAddress]; omega
    exact hs.of_completed (Memory.wf_writeLE hs.memWf _ _ _) (Memory.inside_writeLE hs.memInside hbytes) rfl rfl rfl
      rfl rfl
  · exact hs.of_completed (Memory.wf_writeBlock hs.memWf _ _) (frameCommit_mem_inside hready hs.memInside) rfl rfl rfl
      rfl rfl

theorem runCommand_keeps_inv {c : Word} {s t : State} (hs : s.Inv) (h : runCommand c s = .next t) : t.Inv := by
  rcases runCommand_next h with ⟨i, -, hex⟩ | ⟨e, -, rfl⟩
  · exact exec_keeps_inv hs hex
  · exact hs.raiseFault (by decide)

theorem step_keeps_inv {s t : State} (hs : s.Inv) (h : step s = .next t) : t.Inv := by
  rcases step_cases h with ⟨-, rfl⟩ | ⟨a, rest, -, hcases⟩
  · exact hs
  rcases hcases with
    ⟨c, -, hrun⟩ | ⟨reg, v, hr, -, rfl⟩ | ⟨reg, -, rfl⟩ | ⟨addr, n, v, -, -, -, ha, rfl⟩ |
    ⟨addr, n, -, -, -, rfl⟩ | ⟨-, rfl⟩
  · refine runCommand_keeps_inv ?_ hrun
    exact hs.congr rfl rfl rfl rfl rfl rfl
  · obtain ⟨haw, hmem, -⟩ := writeReg_keeps_input reg (s.taken rest) v
    obtain ⟨-, hst, hy, hcb, hcr⟩ := writeReg_keeps hr (s.taken rest) v
    exact hs.congr hmem haw hst hy hcb hcr
  · exact hs.congr rfl rfl rfl rfl rfl rfl
  · exact { hs with memWf := Memory.wf_writeLE hs.memWf _ _ _, memInside := Memory.inside_writeLE hs.memInside ha }
  · exact hs.congr rfl rfl rfl rfl rfl rfl
  · exact State.Inv.cleared rest hs.memWf hs.memInside hs.aw

/-! ## The canonical form -/

/-- The entries of a canonical memory are the addresses that do not read as an unlisted one, with their bytes. -/
theorem Memory.mem_iff_read {m : Memory} (hm : m.wf) (a : Nat) (b : Byte) :
    (a, b) ∈ m ↔ m.read a = b ∧ b ≠ Memory.default := by
  obtain ⟨hsorted, hlisted⟩ := hm
  induction m with
  | nil => simp [eq_comm]
  | cons c m ih =>
    obtain ⟨k, v⟩ := c
    obtain ⟨hhead, htail⟩ := List.pairwise_cons.1 hsorted
    have ih' := ih htail fun d hd => hlisted d (List.mem_cons_of_mem _ hd)
    have hv : v ≠ Memory.default := hlisted (k, v) List.mem_cons_self
    rw [Memory.read_cons, List.mem_cons, ih']
    by_cases hk : k = a
    · subst hk
      have habsent : Memory.read m k = Memory.default := Memory.read_absent fun d hd => (hhead d hd).ne'
      rw [if_pos rfl, habsent]
      constructor
      · rintro (h | ⟨rfl, hb⟩)
        · cases h; exact ⟨rfl, hv⟩
        · exact absurd rfl hb
      · rintro ⟨rfl, -⟩; exact .inl rfl
    · rw [if_neg hk]
      simp [Ne.symm hk]

/-! ## The statements -/

/-- Settles O53, by the actions a step performs and, for the write to CMD, the commands. -/
theorem everyStepKeepsTheInvariant : Obligations.EveryStepKeepsTheInvariant :=
  fun _ _ hs h => ⟨step_keeps_inv hs h, (step_keeps_input h).1⟩

/-- Settles O52, from the state RESET and power-on share. -/
theorem resetMeetsTheInvariant : Obligations.ResetMeetsTheInvariant :=
  ⟨State.Inv.cleared [] Memory.wf_nil (fun _ hc => by cases hc) (by decide),
    fun _ _ hwf hin haw => State.Inv.cleared [] hwf hin haw⟩

/-- Settles O55: two strictly sorted lists with the same entries are equal. -/
theorem canonicalMemoriesThatReadAlikeAreEqual : Obligations.CanonicalMemoriesThatReadAlikeAreEqual := by
  intro m m' hm hm' hread
  have hsame : ∀ c, c ∈ m ↔ c ∈ m' := fun ⟨a, b⟩ => by
    rw [Memory.mem_iff_read hm, Memory.mem_iff_read hm', hread]
  have hnodup : ∀ {n : Memory}, n.wf → n.Nodup := fun hn => hn.1.imp fun hlt heq => by
    rw [heq] at hlt; exact lt_irrefl _ hlt
  have hperm : m.Perm m' := (List.perm_ext_iff_of_nodup (hnodup hm) (hnodup hm')).2 hsame
  exact hperm.eq_of_pairwise (fun c d _ _ hcd hdc => absurd hcd (lt_asymm hdc)) hm.1 hm'.1

end Sys2Proof.Machine
end

/-! Sample access, in sequences (40_sample_access.md "Store then load", 30_encoding.md section 5): LDS after
STS on one container, and the statements about such sequences settled from it. -/

section
namespace Sys2Proof.Machine

/-! ## LDS and STS where they complete -/

theorem completes_sts {s t : State} (h : Completes .sts s t) :
    DestInside s ∧ 2 * s.index.toNat + 2 ≤ s.dstLen.toNat ∧ t = stsCommit s := by
  obtain ⟨hex, herr⟩ := h
  cases hf : stsFault s with
  | some k =>
    rw [exec_sts_of_fault hf] at hex
    obtain rfl := Host.Outcome.next.inj hex
    exact absurd herr k.code_ne_zero
  | none =>
    rw [exec_sts_of_ok hf] at hex
    obtain rfl := Host.Outcome.next.inj hex
    obtain ⟨hin, hfits⟩ := (stsFault_none_iff s).1 hf
    exact ⟨hin, hfits, rfl⟩

/-- A container holds a sample as it is. -/
theorem readLE_stsCommit (s : State) : (stsCommit s).mem.readLE (stsAddress s) 2 = s.smp.toNat := by
  have hsmp := s.smp.isLt
  rw [stsCommit_mem, Memory.readLE_writeLE, Nat.mod_eq_of_lt (by omega)]

theorem containerSample_toNat_self (x : Sample) : containerSample x.toNat = x := BitVec.eq_of_toNat_eq (by
  rw [containerSample_toNat, Nat.mod_eq_of_lt x.isLt])

/-- On one region, LDS after STS completes and loads the sample that was stored. -/
theorem exec_lds_of_stored {s t : State} (hin : DestInside s) (hfits : 2 * s.index.toNat + 2 ≤ s.dstLen.toNat)
    (hbase : t.srcBase = s.dstBase) (hlen : t.srcLen = s.dstLen) (hindex : t.index = s.index) (haw : t.aw = s.aw)
    (hmem : t.mem = (stsCommit s).mem) : exec .lds t = .next (ldsCommit t) ∧ (ldsCommit t).smp = s.smp := by
  have haddr : ldsAddress t = stsAddress s := by rw [ldsAddress, stsAddress, hbase, hindex]
  refine ⟨exec_lds_of_ok ((ldsFault_none_iff t).2 ?_), ?_⟩
  · rw [SourceInside, hbase, hlen, haw, hindex]
    exact ⟨hin, hfits⟩
  · rw [ldsCommit_smp, hmem, haddr, readLE_stsCommit, containerSample_toNat_self]

/-! ## Runs of pseudo-instructions -/

/-- A register write of the host moves the run on to the state t that holds the value. -/
theorem run_wr {s t : State} {reg : Reg} {v : Word} {rest : List HostAction} {n : Nat} (hr : reg ≠ .cmd)
    (hp : s.pending = wr reg v :: rest) (ht : (s.taken rest).writeReg reg v = t) :
    Host.Core.run core (n + 1) s = Host.Core.run core n t :=
  ht ▸ run_succ (step_writeReg hr hp)

theorem run_issue_encode {s t : State} {i : Instr} {rest : List HostAction} {n : Nat}
    (hp : s.pending = issue i :: rest) (hx : exec i { s.taken rest with cmd := encode i } = .next t) :
    Host.Core.run core (n + 1) s = Host.Core.run core n t :=
  run_issue (decode_encode i) hp hx

/-- Where the STS of `STORES i, v` runs: INDEX holds i, SMP v mod 1024. -/
def State.storing (s : State) (i v : Word) (rest : List HostAction) : State :=
  { s.taken rest with index := i, smp := v.setWidth 10, cmd := encode .sts }

/-- Where the LDS of `LOADS i` runs. -/
def State.loading (s : State) (i : Word) (rest : List HostAction) : State :=
  { s.taken rest with index := i, cmd := encode .lds }

theorem run_storeS {s t : State} {i v : Word} {rest : List HostAction} {n : Nat}
    (hp : s.pending = storeS i v ++ rest)
    (hx : exec .sts (s.storing i v rest) = .next t) :
    Host.Core.run core (n + 3) s = Host.Core.run core n t := by
  rw [run_wr (t := { s.taken (wr .smp v :: issue .sts :: rest) with index := i }) (by decide) hp rfl,
    run_wr (t := { s.taken (issue .sts :: rest) with index := i, smp := v.setWidth 10 }) (by decide) rfl rfl]
  exact run_issue_encode rfl hx

theorem run_loadS {s t : State} {i : Word} {rest : List HostAction} {n : Nat} (hp : s.pending = loadS i ++ rest)
    (hx : exec .lds (s.loading i rest) = .next t) :
    Host.Core.run core (n + 2) s = Host.Core.run core n t := by
  rw [run_wr (t := { s.taken (issue .lds :: rest) with index := i }) (by decide) hp rfl]
  exact run_issue_encode rfl hx

/-! ## The statements -/

/-- Settles O22: what STS, or the host, has put in a container is what LDS loads from it. -/
theorem storeThenLoadReturnsTheSample : Obligations.StoreThenLoadReturnsTheSample := by
  refine ⟨fun s t hbase hlen hsts => ?_, fun s c w rest hc hin hfits hw hp => ?_⟩
  · obtain ⟨hin, hfits, rfl⟩ := completes_sts hsts
    obtain ⟨hlds, hsmp⟩ := exec_lds_of_stored (t := stsCommit s) hin hfits hbase hlen rfl rfl rfl
    exact ⟨_, hlds, rfl, hsmp⟩
  · have hmw := step_memWrite hp (.inr (.inl rfl)) (by omega) (by omega)
    refine ⟨_, (run_succ hmw).trans (run_issue (n := 0) hw rfl (exec_lds_of_ok ((ldsFault_none_iff _).2 ⟨hin, hfits⟩))),
      rfl, ?_⟩
    rw [ldsCommit_smp, containerSample_toNat]
    show (s.mem.writeLE (ldsAddress s) 2 c).readLE (ldsAddress s) 2 % 1024 = c % 1024
    rw [Memory.readLE_writeLE]
    omega

/-- Settles O23: the two pseudo-instructions are STS and LDS on one container. -/
theorem storesThenLoadsRoundTrips : Obligations.StoresThenLoadsRoundTrips := by
  intro s i v hbase hlen hin hfits hp
  have hsts : exec .sts (s.storing i v (loadS i)) = .next (stsCommit (s.storing i v (loadS i))) :=
    exec_sts_of_ok ((stsFault_none_iff _).2 ⟨hin, hfits⟩)
  obtain ⟨hlds, hsmp⟩ := exec_lds_of_stored (s := s.storing i v (loadS i))
    (t := (stsCommit (s.storing i v (loadS i))).loading i []) hin hfits hbase hlen rfl rfl rfl
  have hv : (s.storing i v (loadS i)).smp.toNat = v.toNat % 1024 := BitVec.toNat_setWidth 10 v
  refine ⟨_, (run_storeS hp hsts).trans (run_loadS (n := 0) rfl hlds), rfl, ?_, ?_, rfl⟩
  · rw [hsmp, hv]
  · exact (readLE_stsCommit _).trans hv

end Sys2Proof.Machine
end

/-! Colour (43_colorimetry.md): RGB2YCC as one equation, the integer form against the rational steps, the statements
about its results, and every command straight after reset (70_reset_and_hazards.md section 1). -/

section
namespace Sys2Proof.Machine

/-! ## What RGB2YCC does -/

theorem exec_rgb2ycc_eq (s : State) :
    exec .rgb2ycc s =
      .next { done s with y := (ycc s.r s.g s.b).1, cb := (ycc s.r s.g s.b).2.1, cr := (ycc s.r s.g s.b).2.2 } := by
  show Host.Outcome.next (State.complete _ false) = _
  rw [complete_eq_done]; rfl

theorem exec_rgb2ycc_of_ycc {s : State} {y cb cr : Sample} (h : ycc s.r s.g s.b = (y, cb, cr)) :
    exec .rgb2ycc s = .next { done s with y := y, cb := cb, cr := cr } := by
  rw [exec_rgb2ycc_eq, h]

/-- The results of RGB2YCC as integers. -/
theorem exec_rgb2ycc_toNat {s t : State} (h : exec .rgb2ycc s = .next t) :
    (t.y.toNat : Int) = yccLuma s.r.toNat s.g.toNat s.b.toNat ∧
    (t.cb.toNat : Int) = yccChroma (cbSum s.r.toNat s.g.toNat s.b.toNat) ∧
    (t.cr.toNat : Int) = yccChroma (crSum s.r.toNat s.g.toNat s.b.toNat) := by
  obtain rfl := Host.Outcome.next.inj h
  exact ⟨ycc_luma_toNat s.r s.g s.b, ycc_cb_toNat s.r s.g s.b, ycc_cr_toNat s.r s.g s.b⟩

/-! ## Rounding -/

/-- `floor(o + n / 2e + 1/2)` in integers: half a divisor is added before the floor division (43_colorimetry.md,
"Rounding"). -/
theorem floor_add_div_add_half (o n : Int) {e : Nat} (he : 0 < e) :
    ⌊(o : ℚ) + (n : ℚ) / (2 * e) + 1 / 2⌋ = o + (n + e) / (2 * e) := by
  have he' : (e : ℚ) ≠ 0 := by exact_mod_cast he.ne'
  have hsum : (o : ℚ) + (n : ℚ) / (2 * e) + 1 / 2 = o + ((n + e : Int) : ℚ) / ((2 * e : Nat) : ℚ) := by
    push_cast; field_simp; ring
  rw [hsum, Int.floor_intCast_add, Rat.floor_intCast_div_natCast]
  push_cast; rfl

theorem requantise_luma (r g b : Nat) :
    requantise 64 (940 - 64) 940 (lumaRational r g b) = yccLuma r g b := by
  have hx : (64 : ℚ) + lumaRational r g b * (940 - 64) + 1 / 2 =
      ((64 : Int) : ℚ) + (lumaSum r g b : ℚ) / (2 * (500 : Nat)) + 1 / 2 := by
    simp only [lumaRational, normalise, lumaSum]; push_cast; ring
  rw [requantise, hx, floor_add_div_add_half 64 _ (by decide)]; rfl

/-- The scale of a chroma row: 896 / (876 · 10^6) = 448 / 438000000. -/
theorem requantise_chroma {x : ℚ} {m : Int} (hx : x = m / (1000000 * (940 - 64))) :
    requantise 512 (960 - 64) 960 x = yccChroma m := by
  have hx' : (512 : ℚ) + x * (960 - 64) + 1 / 2 =
      ((512 : Int) : ℚ) + ((448 * m : Int) : ℚ) / (2 * (219000000 : Nat)) + 1 / 2 := by
    rw [hx]; push_cast; ring
  rw [requantise, hx', floor_add_div_add_half 512 _ (by decide)]; rfl

theorem cbRational_eq (r g b : Nat) : cbRational r g b = (cbSum r g b : ℚ) / (1000000 * (940 - 64)) := by
  simp only [cbRational, normalise, cbSum]; push_cast; ring

theorem crRational_eq (r g b : Nat) : crRational r g b = (crSum r g b : ℚ) / (1000000 * (940 - 64)) := by
  simp only [crRational, normalise, crSum]; push_cast; ring

/-- The luma row of the matrix sums to 1, the chroma rows to 0. -/
theorem rational_grey (v : Nat) :
    lumaRational v v v = normalise v ∧ cbRational v v v = 0 ∧ crRational v v v = 0 := by
  refine ⟨?_, ?_, ?_⟩ <;> simp only [lumaRational, cbRational, crRational] <;> ring

/-! ## Grey -/

theorem yccLuma_grey (v : Int) : yccLuma v v v = clamp v 64 940 := by
  have hsum : 64 + (lumaSum v v v + 500) / 1000 = v := by simp only [lumaSum]; omega
  rw [yccLuma, hsum]

theorem yccChroma_grey (v : Int) : yccChroma (cbSum v v v) = 512 ∧ yccChroma (crSum v v v) = 512 := by
  have hcb : cbSum v v v = 0 := by simp only [cbSum]; ring
  have hcr : crSum v v v = 0 := by simp only [crSum]; ring
  rw [hcb, hcr]
  decide

/-! ## Straight after reset -/

/-- With WIDTH 0 no frame command has a legal geometry (60_exceptions.md R232). -/
theorem exec_frame_powerOn {m : Memory} {aw : Nat} {i : Instr} {f : FrameSpec}
    (hf : frameSpec i (State.powerOn m aw) = some f) :
    exec i (State.powerOn m aw) = .next (faulted (State.powerOn m aw) 1) :=
  exec_of_firstFault hf (firstFault_of_geometry fun ⟨hwidth, _⟩ => hwidth rfl)

/-! ## The statements -/

/-- Settles O24, from the integer form the registers hold. -/
theorem rgb2yccComputesTheIntegerForm : Obligations.Rgb2yccComputesTheIntegerForm := by
  intro s
  have hr := s.r.isLt
  have hg := s.g.isLt
  have hb := s.b.isLt
  refine ⟨by omega, abs_le.2 (by omega), abs_le.2 (by omega), _, exec_rgb2ycc_eq s, rfl, ?_⟩
  exact exec_rgb2ycc_toNat (exec_rgb2ycc_eq s)

/-- Settles O25: each rational step has the integer form's sum as its numerator. -/
theorem rgb2yccEqualsTheRationalSteps : Obligations.Rgb2yccEqualsTheRationalSteps := by
  intro s t h
  obtain ⟨hy, hcb, hcr⟩ := exec_rgb2ycc_toNat h
  refine ⟨?_, ?_, ?_, rational_grey⟩
  · rw [hy, requantise_luma]
  · rw [hcb, requantise_chroma (cbRational_eq ..)]
  · rw [hcr, requantise_chroma (crRational_eq ..)]

/-- Settles O26, by computing the two inputs. -/
theorem rgb2yccBoundaryCases : Obligations.Rgb2yccBoundaryCases := by
  intro s
  have hwhite : ycc 940 940 940 = (940, 512, 512) := by decide
  have hblack : ycc 64 64 64 = (64, 512, 512) := by decide
  exact ⟨fun hr hg hb => exec_rgb2ycc_of_ycc (by rw [hr, hg, hb, hwhite]),
    fun hr hg hb => exec_rgb2ycc_of_ycc (by rw [hr, hg, hb, hblack])⟩

/-- Settles O27: on equal inputs the chroma sums vanish and the luma sum is 1000 times the input. -/
theorem rgb2yccRangesAndGrey : Obligations.Rgb2yccRangesAndGrey := by
  intro s t h
  obtain ⟨hy, hcb, hcr⟩ := exec_rgb2ycc_toNat h
  obtain ⟨hyr, hcbr, hcrr⟩ := exec_rgb2ycc_ranges h
  refine ⟨hyr, hcbr, hcrr, fun hrg hgb => ?_⟩
  obtain ⟨hcb0, hcr0⟩ := yccChroma_grey s.r.toNat
  rw [← hgb, ← hrg] at hy hcb hcr
  rw [yccLuma_grey, clamp] at hy
  rw [hcb0] at hcb
  rw [hcr0] at hcr
  refine ⟨BitVec.eq_of_toNat_eq ?_, BitVec.eq_of_toNat_eq ?_, by omega⟩
  · exact_mod_cast hcb
  · exact_mod_cast hcr

/-- Settles O28: 448 times a chroma sum is a multiple of 2^11, and 219000000 is an odd multiple of 2^6, half the power
of 2 in 438000000. -/
theorem chromaNeverTiesLumaTiesRoundUp : Obligations.ChromaNeverTiesLumaTiesRoundUp := by
  intro s t h
  obtain ⟨hy, -, -⟩ := exec_rgb2ycc_toNat h
  simp only [yccLuma, lumaSum, clamp] at hy
  refine ⟨?_, ?_, ?_⟩
  · simp only [cbSum]; omega
  · simp only [crSum]; omega
  · omega

/-- Settles O3: after reset WIDTH is 0 and both regions are empty, so only RGB2YCC completes. -/
theorem commandsStraightAfterReset : Obligations.CommandsStraightAfterReset := by
  intro m aw
  have hsrc : SourceInside (State.powerOn m aw) := Nat.zero_le _
  have hdst : DestInside (State.powerOn m aw) := Nat.zero_le _
  have hshort : 2 * (0 : Word).toNat + 2 > (0 : Word).toNat := by decide
  have hycc : ycc 0 0 0 = (64, 512, 512) := by decide
  exact ⟨fun i ⟨f, hf⟩ => exec_frame_powerOn hf, exec_lds_of_fault (ldsFault_of_short hsrc hshort),
    exec_sts_of_fault (stsFault_of_short hdst hshort), exec_rgb2ycc_of_ycc hycc⟩

end Sys2Proof.Machine
end

/-! The frame commands (41_format_conversion.md, 42_geometry.md): what each shows at the destination where it completes,
what two states that agree on its operands give, and the statements about one frame command settled from that. -/

section
namespace Sys2Proof.Machine

/-! ## One frame command -/

/-- Everything a frame command can do: a fault, or the commit of its shared body. -/
theorem exec_frame_cases {i : Instr} {s t : State} {f : FrameSpec} (hf : frameSpec i s = some f)
    (h : exec i s = .next t) :
    (∃ k, firstFault s f = some k ∧ t = s.raiseFault k) ∨
    (FrameReady s f ∧ ∃ fin fout T, KnownTransform T ∧ frameForm i = some (fin, fout, T, f.strict) ∧
      specOf fin fout T f.strict s = f ∧ t = frameCommit fin fout T s) := by
  obtain ⟨fin, fout, T, hT, hform, hex, hspec⟩ := exec_frame hf
  rw [hex] at h
  have ht := (Host.Outcome.next.inj h).symm
  rcases frameCommand_cases fin fout T f.strict s with ⟨k, hk, hc⟩ | ⟨hready, hc⟩
  · rw [frameFault_eq_firstFault, hspec] at hk
    exact .inl ⟨k, hk, ht.trans hc⟩
  · rw [hspec] at hready
    exact .inr ⟨hready, fin, fout, T, hT, hform, hspec, ht.trans hc⟩

/-- A frame command whose conditions hold has done what R150 says, and shows the frame it computed. -/
theorem frame_completes {i : Instr} {fin fout : Layout} {T : Transform} {strict : Bool} {s : State}
    (hT : KnownTransform T) (hex : exec i s = .next (frameCommand fin fout T strict s))
    (hready : FrameReady s (specOf fin fout T strict s)) :
    ∃ t, exec i s = .next t ∧ FrameDone s t (specOf fin fout T strict s) ∧
      Shows fout t.mem s.dstBase.toNat (T.geometry s.width.toNat s.height.toNat s.target.toNat).1
        (T.geometry s.width.toNat s.height.toNat s.target.toNat).2 (frameOut fin T s).picture := by
  obtain ⟨-, -, heven, hcheck⟩ := hready.geometry
  rw [frameCommand_of_ready hready] at hex
  exact ⟨_, hex, frameCommit_done fin fout T strict s, frameCommit_shows (hT.geometry_even heven hcheck)⟩

theorem convert_completes {i : Instr} {fin fout : Layout} {strict : Bool} {s : State}
    (hex : exec i s = .next (frameCommand fin fout transformId strict s))
    (hready : FrameReady s (convertSpec fin fout strict s)) :
    ∃ t, exec i s = .next t ∧ FrameDone s t (convertSpec fin fout strict s) ∧
      Shows fout t.mem s.dstBase.toNat s.width.toNat s.height.toNat
        (sourcePicture fin s s.width.toNat s.height.toNat) := by
  rw [← specOf_id] at hready ⊢
  rw [← decodeFrame_picture]
  exact frame_completes .id hex hready

theorem pad_completes {i : Instr} {fmt : Layout} {strict : Bool} {s : State}
    (hex : exec i s = .next (frameCommand fmt fmt transformPadW strict s))
    (hready : FrameReady s (padSpec fmt strict s)) :
    ∃ t, exec i s = .next t ∧ FrameDone s t (padSpec fmt strict s) ∧
      Shows fmt t.mem s.dstBase.toNat s.target.toNat s.height.toNat
        (padPicture s.width.toNat s.target.toNat (sourcePicture fmt s s.width.toNat s.height.toNat)) := by
  rw [← specOf_padW] at hready ⊢
  rw [← decodeFrame_picture, ← transformPadW_picture _ s.height.toNat]
  exact frame_completes .padW hex hready

theorem crop_completes {i : Instr} {fmt : Layout} {strict : Bool} {s : State}
    (hex : exec i s = .next (frameCommand fmt fmt transformCropH strict s))
    (hready : FrameReady s (cropSpec fmt strict s)) :
    ∃ t, exec i s = .next t ∧ FrameDone s t (cropSpec fmt strict s) ∧
      Shows fmt t.mem s.dstBase.toNat s.width.toNat s.target.toNat
        (cropPicture s.height.toNat (sourcePicture fmt s s.width.toNat s.height.toNat)) := by
  rw [← specOf_cropH] at hready ⊢
  rw [← decodeFrame_picture, ← transformCropH_picture s.width.toNat _ s.target.toNat]
  exact frame_completes .cropH hex hready

/-! ## Where each frame command completes -/

/-- Settles O30. -/
theorem unpackV210Completes : Obligations.UnpackV210Completes := fun _ _ => convert_completes rfl

/-- Settles O31. -/
theorem packV210Completes : Obligations.PackV210Completes := fun _ _ => convert_completes rfl

/-- Settles O32. -/
theorem packYuyvCompletes : Obligations.PackYuyvCompletes := fun _ _ => convert_completes rfl

/-- Settles O33. -/
theorem unpackYuyvCompletes : Obligations.UnpackYuyvCompletes := fun _ _ => convert_completes rfl

/-- Settles O34: PAD_WIDTH in a layout is the shared body with `PadW` in that layout. -/
theorem padWidthCompletes : Obligations.PadWidthCompletes := by
  intro i fmt strict s hi hready
  simp only [List.mem_cons, Prod.mk.injEq, List.not_mem_nil, or_false] at hi
  rcases hi with ⟨rfl, rfl⟩ | ⟨rfl, rfl⟩ | ⟨rfl, rfl⟩ <;> exact pad_completes rfl hready

/-- Settles O35: CROP_PAD_HEIGHT in a layout is the shared body with `CropH` in that layout. -/
theorem cropPadHeightCompletes : Obligations.CropPadHeightCompletes := by
  intro i fmt strict s hi hready
  simp only [List.mem_cons, Prod.mk.injEq, List.not_mem_nil, or_false] at hi
  rcases hi with ⟨rfl, rfl⟩ | ⟨rfl, rfl⟩ | ⟨rfl, rfl⟩ <;> exact crop_completes rfl hready

/-- Settles O36: the sizes by computing them, the formula from the model's own size lemma. -/
theorem frameSizesOfTheExamples : Obligations.FrameSizesOfTheExamples :=
  ⟨rfl, rfl, rfl, rfl, frameBytes_eq_bytesOf⟩

/-- Settles O40: the command completes, and its short flag and output size are those of its FrameSpec. -/
theorem shortSourceWarns : Obligations.ShortSourceWarns := by
  intro i s f hf _ hready hshort
  obtain ⟨t, hex, herr⟩ := exec_of_ready hf hready
  obtain ⟨hout, -⟩ := outLenIsTheProducedSize i s t hex
  refine ⟨t, hex, hout f hf herr, ?_⟩
  rcases (exec_status_by_err hex).1 herr with ⟨hnone, -⟩ | ⟨f', hf', hst⟩
  · rw [hf] at hnone; cases hnone
  · obtain rfl := Option.some.inj (hf.symm.trans hf')
    simp [hst, Status.completed, hshort]

/-! ## Two states with the same operands -/

/-- The bytes a frame command writes. -/
def producedBytes (fin fout : Layout) (T : Transform) (s : State) : List Byte :=
  encodeFrame fout (frameOut fin T s) (T.geometry s.width.toNat s.height.toNat s.target.toNat).1
    (T.geometry s.width.toNat s.height.toNat s.target.toNat).2

theorem producedBytes_length (fin fout : Layout) (T : Transform) (strict : Bool) (s : State) :
    (producedBytes fin fout T s).length = (specOf fin fout T strict s).needOut := encodeFrame_length ..

theorem frameCommit_read_produced {fin fout : Layout} {T : Transform} {s : State} {k : Nat}
    (hk : k < (producedBytes fin fout T s).length) :
    (frameCommit fin fout T s).mem.read (s.dstBase.toNat + k) = (producedBytes fin fout T s)[k] :=
  frameCommit_read_inside fin fout T s k hk

/-- The commands that do not read TARGET pass the transform that ignores it. -/
theorem transformId_of_not_readsTarget {i : Instr} {fin fout : Layout} {T : Transform} {strict : Bool}
    (hform : frameForm i = some (fin, fout, T, strict)) (hi : readsTarget i = false) : T = transformId := by
  cases i
  case unpackV210 | packV210 | packYuyv | unpackYuyv => cases hform; rfl
  case rgb2ycc | lds | sts => cases hform
  all_goals cases hi

/-- The conditions and sizes of a frame command depend on the geometry registers it reads. -/
theorem specOf_congr {fin fout : Layout} {T : Transform} {strict : Bool} {s u : State} (hw : s.width = u.width)
    (hh : s.height = u.height) (ht : s.target = u.target ∨ T = transformId) :
    specOf fin fout T strict s = specOf fin fout T strict u := by
  rcases ht with ht | rfl
  · simp only [specOf, hw, hh, ht]
  · simp only [specOf, hw, hh, transformId]

/-- The output of a frame command depends on the geometry registers it reads and on the source bytes below need_in. -/
theorem producedBytes_congr {fin fout : Layout} {T : Transform} {strict : Bool} {s u : State} (hT : KnownTransform T)
    (hg : GeometryOk s (specOf fin fout T strict s)) (hw : s.width = u.width) (hh : s.height = u.height)
    (ht : s.target = u.target ∨ T = transformId) (hl : s.srcLen = u.srcLen)
    (hb : ∀ k, k < (specOf fin fout T strict s).needIn → k < s.srcLen.toNat →
      s.mem.read (s.srcBase.toNat + k) = u.mem.read (u.srcBase.toNat + k)) :
    producedBytes fin fout T s = producedBytes fin fout T u := by
  obtain ⟨hw0, -, heven, hcheck⟩ := hg
  have hdecode : SameFrame s.width.toNat s.height.toNat
      (decodeFrame fin s s.width.toNat s.height.toNat) (decodeFrame fin u s.width.toNat s.height.toNat) :=
    decodeFrame_congr heven hl hb
  have hsame := encodeFrame_congr (fmt := fout) (hT.geometry_even heven hcheck)
    (hT.geometry_pos (Nat.pos_of_ne_zero hw0) hcheck) (hT.apply_congr hdecode)
  refine hsame.trans ?_
  rcases ht with ht | rfl
  · simp only [producedBytes, frameOut, hw, hh, ht]
  · simp only [producedBytes, frameOut, hw, hh, transformId]

theorem firstFault_congr {s u : State} {f : FrameSpec} {n : Nat} (h : SameFrameOperands s u n) :
    firstFault s f = firstFault u f := by
  unfold firstFault GeometryOk SourceInside DestInside RegionsDisjoint
  rw [h.aw, h.srcBase, h.srcLen, h.dstBase, h.dstLen, h.width, h.height]

theorem frameSpec_congr {i : Instr} {s u : State} (hw : s.width = u.width) (hh : s.height = u.height)
    (ht : readsTarget i = true → s.target = u.target) : frameSpec i s = frameSpec i u := by
  cases i
  case padWidthV210 | padWidthPlanar | padWidthYuyv | cropPadHeightV210 | cropPadHeightPlanar | cropPadHeightYuyv =>
    simp only [frameSpec, padSpec, cropSpec, hw, hh, ht rfl]
  all_goals simp only [frameSpec, convertSpec, hw, hh]

/-- A frame command on two states with the same operands: the same fault, or two commits that write the same bytes. -/
theorem exec_frame_pair {i : Instr} {s u t v : State} {f : FrameSpec} (hf : frameSpec i s = some f)
    (hsame : SameFrameOperands s u f.needIn) (htarget : readsTarget i = true → s.target = u.target)
    (hs : exec i s = .next t) (hu : exec i u = .next v) :
    (∃ k, t = s.raiseFault k ∧ v = u.raiseFault k) ∨
    (FrameReady s f ∧ FrameDone s t f ∧ FrameDone u v f ∧
      ∀ k, k < f.needOut → t.mem.read (s.dstBase.toNat + k) = v.mem.read (u.dstBase.toNat + k)) := by
  have hfu : frameSpec i u = some f := (frameSpec_congr hsame.width hsame.height htarget).symm.trans hf
  rcases exec_frame_cases hf hs with ⟨k, hk, rfl⟩ | ⟨hready, fin, fout, T, hT, hform, hspec, rfl⟩
  · have hku := (firstFault_congr hsame).symm.trans hk
    rw [exec_of_firstFault hfu hku] at hu
    exact .inl ⟨k, rfl, (Host.Outcome.next.inj hu).symm⟩
  · have ht : s.target = u.target ∨ T = transformId := by
      cases hi : readsTarget i with
      | true => exact .inl (htarget hi)
      | false => exact .inr (transformId_of_not_readsTarget hform hi)
    have hspecu : specOf fin fout T f.strict u = f := (specOf_congr hsame.width hsame.height ht).symm.trans hspec
    rcases exec_frame_cases hfu hu with ⟨k, hk, -⟩ | ⟨-, fin', fout', T', -, hform', -, rfl⟩
    · rw [← firstFault_congr hsame, firstFault_of_ready hready] at hk; cases hk
    · cases hform.symm.trans hform'
      have hbytes : producedBytes fin fout T s = producedBytes fin fout T u :=
        producedBytes_congr hT (hspec.symm ▸ hready.geometry) hsame.width hsame.height ht hsame.srcLen
          (hspec.symm ▸ hsame.bytes)
      have hlen := producedBytes_length fin fout T f.strict s
      rw [hspec] at hlen
      refine .inr ⟨hready, hspec ▸ frameCommit_done fin fout T f.strict s,
        hspecu ▸ frameCommit_done fin fout T f.strict u, fun k hk => ?_⟩
      rw [frameCommit_read_produced (hlen ▸ hk), frameCommit_read_produced (by rw [← hbytes, hlen]; exact hk)]
      simp only [hbytes]

end Sys2Proof.Machine
end

/-! What a command leaves alone and what it depends on (41_format_conversion.md section 1, 30_encoding.md section 3,
20_memory.md section 2). -/

section
namespace Sys2Proof.Machine

/-! ## Frames, source and destination -/

theorem completes_frame {i : Instr} {s t : State} {f : FrameSpec} (hf : frameSpec i s = some f)
    (h : Completes i s t) :
    FrameReady s f ∧ ∃ fin fout T, KnownTransform T ∧ frameForm i = some (fin, fout, T, f.strict) ∧
      specOf fin fout T f.strict s = f ∧ t = frameCommit fin fout T s := by
  obtain ⟨hex, herr⟩ := h
  rcases exec_frame_cases hf hex with ⟨k, -, rfl⟩ | hdone
  · exact absurd herr k.code_ne_zero
  · exact hdone

/-- What a frame command does, in the words of the claims. -/
theorem exec_frame_done {i : Instr} {s t : State} {f : FrameSpec} (hf : frameSpec i s = some f)
    (h : exec i s = .next t) : (∃ k, t = s.raiseFault k) ∨ (FrameReady s f ∧ FrameDone s t f) := by
  rcases exec_frame_cases hf h with ⟨k, -, rfl⟩ | ⟨hready, fin, fout, T, -, -, hspec, rfl⟩
  · exact .inl ⟨k, rfl⟩
  · exact .inr ⟨hready, hspec ▸ frameCommit_done fin fout T f.strict s⟩

/-- A byte that a frame command changes is one of the first need_out of the destination region. -/
theorem exec_frame_changed {i : Instr} {s t : State} {f : FrameSpec} {a : Nat} (hf : frameSpec i s = some f)
    (h : exec i s = .next t) (ha : t.mem.read a ≠ s.mem.read a) :
    s.dstBase.toNat ≤ a ∧ a < s.dstBase.toNat + f.needOut ∧ f.needOut ≤ s.dstLen.toNat ∧ RegionsDisjoint s := by
  rcases exec_frame_done hf h with ⟨k, rfl⟩ | ⟨hready, hdone⟩
  · exact absurd rfl ha
  · have hinside : ¬ (a < s.dstBase.toNat ∨ s.dstBase.toNat + f.needOut ≤ a) := fun hout => ha (hdone.outside a hout)
    exact ⟨by omega, by omega, hready.fits, hready.disjoint⟩

theorem FrameDone.registers_only {s t : State} {f : FrameSpec} (h : FrameDone s t f) :
    t = { s with mem := t.mem, outLen := t.outLen, status := t.status } := by
  rw [h.registers]

/-- Memory apart, a completed frame command does the same in every memory. -/
theorem FrameDone.eq_of_mem {s t v : State} {m : Memory} {f : FrameSpec} (hs : FrameDone s t f)
    (hm : FrameDone { s with mem := m } v f) : v = { t with mem := v.mem } := by
  rw [hs.registers, hm.registers]

/-! ## The empty source -/

theorem sourcePicture_empty {s : State} (h : s.srcLen.toNat = 0) (fmt : Layout) (w h' : Nat) :
    sourcePicture fmt s w h' = neutralPicture := by
  have hcontainer : ∀ off n, srcContainer s off n = n := fun off n => if_neg (by omega)
  have hfield : ∀ off lo n, srcField s off lo n = n := fun off lo n => if_neg (by omega)
  cases fmt with
  | planar => simp only [sourcePicture, hcontainer]; rfl
  | yuyv => simp only [sourcePicture, hcontainer]; rfl
  | v210 =>
    simp only [sourcePicture, hfield, neutralPicture, Picture.mk.injEq]
    refine ⟨?_, ?_, ?_⟩ <;> funext r x <;> split <;> rfl

theorem padPicture_neutral (w t : Nat) : padPicture w t neutralPicture = neutralPicture := by
  simp only [padPicture, neutralPicture, ite_self]

theorem cropPicture_neutral (h : Nat) : cropPicture h neutralPicture = neutralPicture := by
  simp only [cropPicture, neutralPicture, ite_self]

theorem bytesOf_pos (fmt : Layout) {w h : Nat} (hw : w ≠ 0) (hh : h ≠ 0) : 0 < bytesOf fmt w h := by
  have hw' : 0 < w := Nat.pos_of_ne_zero hw
  have hh' : 0 < h := Nat.pos_of_ne_zero hh
  cases fmt with
  | v210 => exact Nat.mul_pos (Nat.mul_pos (by omega) (by decide)) hh'
  | planar => exact Nat.mul_pos (by omega) hh'
  | yuyv => exact Nat.mul_pos (by omega) hh'

/-- On an empty source a frame command that completes warns and shows the neutral frame
(41_format_conversion.md R156). -/
theorem neutral_of_completed {i : Instr} {fmt : Layout} {s : State} {f : FrameSpec} {base w h : Nat} {P : Picture}
    (hlen : s.srcLen.toNat = 0) (hneed : 0 < f.needIn) (hP : P = neutralPicture)
    (hdone : ∃ t, exec i s = .next t ∧ FrameDone s t f ∧ Shows fmt t.mem base w h P) :
    ∃ t, exec i s = .next t ∧ t.status.err = 0 ∧ t.status.warn = true ∧ Shows fmt t.mem base w h neutralPicture := by
  obtain ⟨t, hex, hdone, hshows⟩ := hdone
  refine ⟨t, hex, ?_, ?_, hP ▸ hshows⟩
  · rw [hdone.registers]
  · rw [hdone.registers]
    exact decide_eq_true (by omega)

/-! ## LDS and STS -/

theorem ldsFault_congr {s u : State} (haw : s.aw = u.aw) (hb : s.srcBase = u.srcBase) (hl : s.srcLen = u.srcLen)
    (hi : s.index = u.index) : ldsFault s = ldsFault u := by
  simp only [ldsFault, haw, hb, hl, hi]

theorem stsFault_congr {s u : State} (haw : s.aw = u.aw) (hb : s.dstBase = u.dstBase) (hl : s.dstLen = u.dstLen)
    (hi : s.index = u.index) : stsFault s = stsFault u := by
  simp only [stsFault, haw, hb, hl, hi]

/-- Two checked commands with the same outcome of their checks take the same fault, or both commit. -/
theorem State.checked_pair {s u t v : State} {f : Option FaultCode} {c : State → State} (hs : s.checked f c = t)
    (hu : u.checked f c = v) : (∃ k, t = s.raiseFault k ∧ v = u.raiseFault k) ∨ (t = c s ∧ v = c u) := by
  cases f with
  | some k => exact .inl ⟨k, hs.symm, hu.symm⟩
  | none => exact .inr ⟨hs.symm, hu.symm⟩

/-- LDS depends on the source region, INDEX and the container it loads. -/
theorem exec_lds_pair {s u t v : State} (haw : s.aw = u.aw) (hb : s.srcBase = u.srcBase) (hl : s.srcLen = u.srcLen)
    (hi : s.index = u.index) (hbytes : ∀ k, k < 2 → s.mem.read (ldsAddress s + k) = u.mem.read (ldsAddress s + k))
    (hs : exec .lds s = .next t) (hu : exec .lds u = .next v) :
    t.status.err = v.status.err ∧ t.status.warn = v.status.warn ∧ (t.status.err = 0 → t.smp = v.smp) := by
  have hs' : s.checked (ldsFault s) ldsCommit = t := Host.Outcome.next.inj hs
  have hu' : u.checked (ldsFault u) ldsCommit = v := Host.Outcome.next.inj hu
  rw [← ldsFault_congr haw hb hl hi] at hu'
  have haddr : ldsAddress s = ldsAddress u := by simp only [ldsAddress, hb, hi]
  rcases State.checked_pair hs' hu' with ⟨k, rfl, rfl⟩ | ⟨rfl, rfl⟩
  · exact ⟨rfl, rfl, fun h0 => absurd h0 k.code_ne_zero⟩
  · refine ⟨rfl, rfl, fun _ => ?_⟩
    rw [ldsCommit_smp, ldsCommit_smp, ← haddr, Memory.readLE_congr hbytes]

/-- STS depends on the destination region, INDEX and SMP. -/
theorem exec_sts_pair {s u t v : State} (haw : s.aw = u.aw) (hb : s.dstBase = u.dstBase) (hl : s.dstLen = u.dstLen)
    (hi : s.index = u.index) (hsmp : s.smp = u.smp) (hs : exec .sts s = .next t) (hu : exec .sts u = .next v) :
    t.status.err = v.status.err ∧ t.status.warn = v.status.warn ∧
    (t.status.err = 0 → ∀ k, k < 2 → t.mem.read (stsAddress s + k) = v.mem.read (stsAddress s + k)) := by
  have hs' : s.checked (stsFault s) stsCommit = t := Host.Outcome.next.inj hs
  have hu' : u.checked (stsFault u) stsCommit = v := Host.Outcome.next.inj hu
  rw [← stsFault_congr haw hb hl hi] at hu'
  have haddr : stsAddress s = stsAddress u := by simp only [stsAddress, hb, hi]
  rcases State.checked_pair hs' hu' with ⟨k, rfl, rfl⟩ | ⟨rfl, rfl⟩
  · exact ⟨rfl, rfl, fun h0 => absurd h0 k.code_ne_zero⟩
  · refine ⟨rfl, rfl, fun _ k hk => BitVec.eq_of_toNat_eq ?_⟩
    rw [stsCommit_mem, stsCommit_mem, ← haddr, hsmp, Memory.toNat_read_writeLE hk, Memory.toNat_read_writeLE hk]

/-! ## The statements -/

/-- Settles O43, from what a completed frame command has done, two memories with the same source bytes, and the picture
of an empty source. -/
theorem frameCommandsLeaveTheRestAlone : Obligations.FrameCommandsLeaveTheRestAlone := by
  refine ⟨fun i s t f hf h => ⟨?_, fun a ha => ?_, fun k hk => ?_⟩, fun i s u t v f hf hu hbytes hs hv => ?_,
    fun strict s _ hlen => ?_⟩
  · rcases exec_frame_done hf h with ⟨k, rfl⟩ | ⟨-, hdone⟩
    · rfl
    · exact hdone.registers_only
  · obtain ⟨hlow, hhigh, hfits, -⟩ := exec_frame_changed hf h ha
    exact ⟨hlow, hhigh, by omega⟩
  · by_contra hc
    obtain ⟨hlow, hhigh, hfits, hdisjoint⟩ := exec_frame_changed hf h hc
    rcases hdisjoint with h0 | h0 | h0 | h0 <;> omega
  · generalize u.mem = m at hu hbytes
    subst hu
    have hsame : SameFrameOperands s { s with mem := m } f.needIn :=
      ⟨rfl, rfl, rfl, rfl, rfl, rfl, rfl, fun k hk hk' => (hbytes k hk hk').symm⟩
    rcases exec_frame_pair hf hsame (fun _ => rfl) hs hv with ⟨k, rfl, rfl⟩ | ⟨-, hdone, hdone', hout⟩
    · exact ⟨rfl, fun h0 => absurd h0 k.code_ne_zero, fun _ => rfl⟩
    · refine ⟨hdone.eq_of_mem hdone', fun _ k hk => (hout k hk).symm, fun hlong => ?_⟩
      rw [hdone.registers]
      exact decide_eq_false (by omega)
  · have hempty := sourcePicture_empty hlen
    have hin : ∀ {f : FrameSpec} (fmt : Layout), FrameReady s f → 0 < bytesOf fmt s.width.toNat s.height.toNat :=
      fun fmt hready => bytesOf_pos fmt hready.geometry.1 hready.geometry.2.1
    refine ⟨fun hready => ?_, fun hready => ?_, fun hready => ?_, fun hready => ?_, fun i fmt hi hready => ?_,
      fun i fmt hi hready => ?_⟩
    · exact neutral_of_completed hlen (hin .v210 hready) (hempty ..) (unpackV210Completes strict s hready)
    · exact neutral_of_completed hlen (hin .planar hready) (hempty ..) (packV210Completes strict s hready)
    · exact neutral_of_completed hlen (hin .planar hready) (hempty ..) (packYuyvCompletes strict s hready)
    · exact neutral_of_completed hlen (hin .yuyv hready) (hempty ..) (unpackYuyvCompletes strict s hready)
    · exact neutral_of_completed hlen (hin fmt hready) (by rw [hempty, padPicture_neutral])
        (padWidthCompletes i fmt strict s hi hready)
    · exact neutral_of_completed hlen (hin fmt hready) (by rw [hempty, cropPicture_neutral])
        (cropPadHeightCompletes i fmt strict s hi hready)

/-- Settles O44, one command family at a time. -/
theorem commandsDependOnTheirOperandsOnly : Obligations.CommandsDependOnTheirOperandsOnly := by
  refine ⟨fun i s u t v f hf hsame htarget hs hu => ?_, fun s u t v hr hg hb hs hu => ?_,
    fun s u t v => exec_lds_pair, fun s u t v => exec_sts_pair⟩
  · rcases exec_frame_pair hf hsame htarget hs hu with ⟨k, rfl, rfl⟩ | ⟨-, hdone, hdone', hout⟩
    · exact ⟨rfl, rfl, fun h0 => absurd h0 k.code_ne_zero⟩
    · rw [← hsame.dstBase] at hout
      refine ⟨?_, ?_, fun _ => ⟨?_, hout⟩⟩ <;> rw [hdone.registers, hdone'.registers]
      rw [hsame.srcLen]
  · rw [exec_rgb2ycc_eq] at hs hu
    obtain rfl := Host.Outcome.next.inj hs
    obtain rfl := Host.Outcome.next.inj hu
    rw [hr, hg, hb]
    exact ⟨rfl, rfl, rfl, rfl, rfl⟩

/-- Settles O45: the bytes a command writes do not depend on the bases of its buffers. -/
theorem bufferPlacementDoesNotMatter : Obligations.BufferPlacementDoesNotMatter := by
  intro i s u t v f hf hw hh ht hl hbytes hs hu
  have hfu : frameSpec i u = some f := (frameSpec_congr hw hh fun _ => ht).symm.trans hf
  obtain ⟨hready, fin, fout, T, hT, hform, hspec, rfl⟩ := completes_frame hf hs
  obtain ⟨-, fin', fout', T', -, hform', hspecu, rfl⟩ := completes_frame hfu hu
  cases hform.symm.trans hform'
  have hsame : producedBytes fin fout T s = producedBytes fin fout T u :=
    producedBytes_congr hT (hspec.symm ▸ hready.geometry) hw hh (.inl ht) hl fun k _ hk => hbytes k hk
  have hlen := producedBytes_length fin fout T f.strict s
  rw [hspec] at hlen
  have hdone := frameCommit_done fin fout T f.strict s
  have hdoneu := frameCommit_done fin fout T f.strict u
  rw [hspec] at hdone
  rw [hspecu] at hdoneu
  refine ⟨?_, ?_, fun k hk => ?_⟩
  · rw [hdone.registers, hdoneu.registers]
  · rw [hdone.registers, hdoneu.registers, hl]
  · rw [frameCommit_read_produced (hlen ▸ hk), frameCommit_read_produced (by rw [← hsame, hlen]; exact hk)]
    simp only [hsame]

end Sys2Proof.Machine
end

/-! Frames that pass from one command to the next (20_memory.md section 5, 41_format_conversion.md section 3,
42_geometry.md "Composition", 30_encoding.md section 5): what a completed command leaves at its destination is what the
next one decodes, and the round trips and compositions are chains of that. -/

section
namespace Sys2Proof.Machine

/-! ## Decode after Encode -/

/-- Memory holds, from base up, the bytes `Encode` gives for the frame. -/
def HoldsFrame (fmt : Layout) (F : Frame) (w h : Nat) (m : Memory) (base : Nat) : Prop :=
  ∀ i (hi : i < (encodeFrame fmt F w h).length), m.read (base + i) = (encodeFrame fmt F w h)[i]

theorem sampleC16_of_le {s : State} {off : Nat} (c : Comp) (h : off + 2 ≤ s.srcLen.toNat) :
    s.sampleC16 off c = containerSample (s.mem.readLE (s.srcBase.toNat + off) 2) := by
  simp only [State.sampleC16, State.source, if_pos h]

theorem sampleW32_of_le {s : State} {off f : Nat} (c : Comp) (h : off + 4 ≤ s.srcLen.toNat) :
    s.sampleW32 off f c = v210Field (s.mem.readLE (s.srcBase.toNat + off) 4) f := by
  simp only [State.sampleW32, State.source, if_pos h]

/-- Decode returns the frame whose bytes the source holds, in every layout and at every even width. -/
theorem decodeFrame_of_holdsFrame {fmt : Layout} {F : Frame} {w h : Nat} {s : State} (hw : w % 2 = 0)
    (hlen : frameBytes fmt w h ≤ s.srcLen.toNat) (hm : HoldsFrame fmt F w h s.mem s.srcBase.toNat) :
    SameFrame w h (decodeFrame fmt s w h) F := by
  intro c r x hr hx
  cases fmt with
  | planar =>
    have hoff := offPlanar_lt hw hr hx
    rw [decodeFrame, sampleC16_of_le c (by omega), readLE_planar hw hr hx hm, containerSample_toNat_self]
  | yuyv =>
    have hoff := offYuyv_lt hw hr hx
    rw [decodeFrame, sampleC16_of_le c (by omega), readLE_yuyv hw hr hx hm, containerSample_toNat_self]
  | v210 =>
    obtain ⟨hk, hf⟩ := sampleSlot_lt c (Nat.mod_lt x (perGroup_pos c))
    have hg := group_lt hx
    have hoff := offV210_lt (w := w) hr hg hk
    simp only [decodeFrame]
    rw [sampleW32_of_le c (by omega), readLE_v210 hr hg hk hm, v210Field_slots hf, slotValue_sample hx]

/-! ## From one command to the next -/

/-- The source region of s decodes to the frame F. -/
def SourceIs (fmt : Layout) (F : Frame) (s : State) : Prop :=
  SameFrame s.width.toNat s.height.toNat (decodeFrame fmt s s.width.toNat s.height.toNat) F

/-- The destination of t holds the frame F, w × h, and OUT_LEN its size. -/
structure DestIs (fmt : Layout) (F : Frame) (w h : Nat) (t : State) : Prop where
  even : w % 2 = 0
  bytes : HoldsFrame fmt F w h t.mem t.dstBase.toNat
  length : t.outLen.toNat = frameBytes fmt w h

theorem sourceIs_decodeFrame (fmt : Layout) (s : State) :
    SourceIs fmt (decodeFrame fmt s s.width.toNat s.height.toNat) s := fun _ _ _ _ _ => rfl

theorem completes_keeps_dstBase {i : Instr} {s t : State} (h : Completes i s t) : t.dstBase = s.dstBase := by
  rw [exec_writes_only h.1]

theorem completes_chain_dstBase {i : Instr} {s t : State} {d n w h g : Word} (hc : Completes i (s.chain d n w h g) t) :
    t.dstBase = d := completes_keeps_dstBase hc

/-- A conversion whose conditions hold commits. -/
theorem exec_convert_of_ready {i : Instr} {fin fout : Layout} {strict : Bool} {s : State}
    (hex : exec i s = .next (frameCommand fin fout transformId strict s))
    (hready : FrameReady s (convertSpec fin fout strict s)) :
    exec i s = .next (frameCommit fin fout transformId s) := by
  rw [hex, frameCommand_of_ready (specOf_id fin fout strict s ▸ hready)]

/-- A frame command that completes leaves the transform of its source frame at its destination. -/
theorem destIs_of_completes {i : Instr} {fin fout : Layout} {T : Transform} {strict : Bool} {s t : State} {F : Frame}
    (hT : KnownTransform T) (hex : exec i s = .next (frameCommand fin fout T strict s)) (h : Completes i s t)
    (hF : SourceIs fin F s) :
    DestIs fout (T.apply s.width.toNat s.height.toNat s.target.toNat F)
      (T.geometry s.width.toNat s.height.toNat s.target.toNat).1
      (T.geometry s.width.toNat s.height.toNat s.target.toNat).2 t := by
  obtain ⟨ht, herr⟩ := h
  obtain rfl := Host.Outcome.next.inj (hex.symm.trans ht)
  rcases frameCommand_cases fin fout T strict s with ⟨k, -, hc⟩ | ⟨hready, hc⟩
  · rw [hc] at herr
    exact absurd herr k.code_ne_zero
  · obtain ⟨hw0, -, heven, hcheck⟩ := hready.geometry
    have hsame := encodeFrame_congr (fmt := fout) (hT.geometry_even heven hcheck)
      (hT.geometry_pos (Nat.pos_of_ne_zero hw0) hcheck) (hT.apply_congr (t := s.target.toNat) hF)
    have hout : (frameCommit fin fout T s).outLen = BitVec.ofNat 32 (specOf fin fout T strict s).needOut := rfl
    have hfits : (specOf fin fout T strict s).needOut < 2 ^ 32 := lt_of_le_of_lt hready.fits s.dstLen.isLt
    rw [hc]
    refine ⟨hT.geometry_even heven hcheck, ?_, ?_⟩
    · rw [HoldsFrame, ← hsame]
      exact frameCommit_read_inside fin fout T s
    · rw [hout, BitVec.toNat_ofNat, Nat.mod_eq_of_lt hfits]; rfl

/-- A conversion leaves its source frame itself. -/
theorem destIs_of_convert {i : Instr} {fin fout : Layout} {strict : Bool} {s t : State} {F : Frame}
    (hex : exec i s = .next (frameCommand fin fout transformId strict s)) (h : Completes i s t)
    (hF : SourceIs fin F s) : DestIs fout F s.width.toNat s.height.toNat t :=
  destIs_of_completes .id hex h hF

/-- A state whose source is the destination of t, with OUT_LEN as SRC_LEN, decodes to the frame t holds there. -/
theorem DestIs.sourceIs {fmt : Layout} {F : Frame} {w h : Nat} {t u : State} (ht : DestIs fmt F w h t)
    (hmem : u.mem = t.mem) (hbase : u.srcBase = t.dstBase) (hlen : u.srcLen = t.outLen) (hw : u.width.toNat = w)
    (hh : u.height.toNat = h) : SourceIs fmt F u := by
  subst hw hh
  refine decodeFrame_of_holdsFrame ht.even ?_ ?_
  · rw [hlen, ht.length]
  · rw [hmem, hbase]
    exact ht.bytes

theorem DestIs.chain {fmt : Layout} {F : Frame} {t : State} {d n w h g : Word}
    (ht : DestIs fmt F w.toNat h.toNat t) : SourceIs fmt F (t.chain d n w h g) :=
  ht.sourceIs rfl rfl rfl rfl rfl

/-! ## Containers and words, one after another -/

/-- Equal values have equal bytes. -/
theorem Memory.read_of_readLE {m m' : Memory} {a a' n : Nat} (h : m.readLE a n = m'.readLE a' n) :
    ∀ i, i < n → m.read (a + i) = m'.read (a' + i) := by
  induction n generalizing a a' with
  | zero => intro i hi; cases hi
  | succ n ih =>
    have hb := (m.read a).isLt
    have hb' := (m'.read a').isLt
    simp only [Memory.readLE] at h
    have hlow : m.read a = m'.read a' := BitVec.eq_of_toNat_eq (by omega)
    have hhigh : m.readLE (a + 1) n = m'.readLE (a' + 1) n := by omega
    intro i hi
    cases i with
    | zero => exact hlow
    | succ i =>
      rw [show a + (i + 1) = a + 1 + i by omega, show a' + (i + 1) = a' + 1 + i by omega]
      exact ih hhigh i (by omega)

/-- Two buffers whose units of u bytes have equal values are equal byte by byte. -/
theorem Memory.read_of_units {m m' : Memory} {a a' u n : Nat} (hu : 0 < u)
    (h : ∀ q, q < n → m.readLE (a + u * q) u = m'.readLE (a' + u * q) u) {j : Nat} (hj : j < u * n) :
    m.read (a + j) = m'.read (a' + j) := by
  have hq : j / u < n := (Nat.div_lt_iff_lt_mul hu).2 (by rwa [Nat.mul_comm])
  have hbyte := Memory.read_of_readLE (h (j / u) hq) (j % u) (Nat.mod_lt j hu)
  rwa [Nat.add_assoc, Nat.add_assoc, Nat.div_add_mod] at hbyte

theorem grid_split {n h q : Nat} (hq : q < n * h) : q / n < h ∧ q % n < n ∧ q / n * n + q % n = q := by
  have hn : 0 < n := Nat.pos_of_ne_zero fun h0 => by simp [h0] at hq
  exact ⟨(Nat.div_lt_iff_lt_mul hn).2 (by rwa [Nat.mul_comm]), Nat.mod_lt q hn, Nat.div_add_mod' q n⟩

theorem half_width_mul {w : Nat} (hw : w % 2 = 0) (h : Nat) : 2 * (w / 2 * h) = w * h := by
  rw [← Nat.mul_assoc]; congr 1; omega

/-- Every container of a planar frame is that of a sample (20_memory.md R71). -/
theorem exists_offPlanar {w h q : Nat} (hw : w % 2 = 0) (hq : q < 2 * (w * h)) :
    ∃ c r x, r < h ∧ x < compWidth c w ∧ offPlanar c w h r x = 2 * q := by
  have hhalf := half_width_mul hw h
  by_cases hy : q < w * h
  · obtain ⟨hr, hx, hsplit⟩ := grid_split hy
    exact ⟨.y, q / w, q % w, hr, hx, by rw [offPlanar, hsplit]⟩
  obtain ⟨p, rfl⟩ : ∃ p, q = w * h + p := ⟨q - w * h, by omega⟩
  by_cases hcb : p < w / 2 * h
  · obtain ⟨hr, hx, hsplit⟩ := grid_split hcb
    exact ⟨.cb, p / (w / 2), p % (w / 2), hr, hx, by rw [offPlanar, hsplit]; ring⟩
  obtain ⟨p, rfl⟩ : ∃ p', p = w / 2 * h + p' := ⟨p - w / 2 * h, by omega⟩
  obtain ⟨hr, hx, hsplit⟩ := grid_split (show p < w / 2 * h by omega)
  refine ⟨.cr, p / (w / 2), p % (w / 2), hr, hx, ?_⟩
  rw [offPlanar, hsplit, show 3 * w * h = 3 * (w * h) by ring]
  omega

/-- Every container of a YUYV frame is that of a sample (20_memory.md R72). -/
theorem exists_offYuyv {w h q : Nat} (hw : w % 2 = 0) (hq : q < 2 * (w * h)) :
    ∃ c r x, r < h ∧ x < compWidth c w ∧ offYuyv c w r x = 2 * q := by
  have hhalf := half_width_mul hw h
  obtain ⟨hr, hj, hsplit⟩ := grid_split (show q / 4 < w / 2 * h by omega)
  have hpair : offPair w (q / 4 / (w / 2)) (q / 4 % (w / 2)) = 8 * (q / 4) := by rw [offPair, hsplit]
  generalize q / 4 / (w / 2) = r at hr hpair
  generalize q / 4 % (w / 2) = j at hj hpair
  have hslot : q % 4 = 0 ∨ q % 4 = 1 ∨ q % 4 = 2 ∨ q % 4 = 3 := by omega
  rcases hslot with h4 | h4 | h4 | h4
  · refine ⟨.y, r, 2 * j, hr, by simp only [compWidth]; omega, ?_⟩
    rw [offYuyv, show 2 * j / 2 = j by omega, hpair]; omega
  · exact ⟨.cb, r, j, hr, hj, by rw [offYuyv, hpair]; omega⟩
  · refine ⟨.y, r, 2 * j + 1, hr, by simp only [compWidth]; omega, ?_⟩
    rw [offYuyv, show (2 * j + 1) / 2 = j by omega, hpair]; omega
  · exact ⟨.cr, r, j, hr, hj, by rw [offYuyv, hpair]; omega⟩

/-- A buffer of containers that holds what its source decodes to holds the source's containers modulo 1024. -/
theorem containers_of_holdsFrame {fmt : Layout} {s : State} {m : Memory} {w h base q : Nat} (hfmt : fmt ≠ .v210)
    (hw : w % 2 = 0) (hlen : 4 * w * h ≤ s.srcLen.toNat)
    (hm : HoldsFrame fmt (decodeFrame fmt s w h) w h m base) (hq : q < 2 * w * h) :
    m.readLE (base + 2 * q) 2 = s.mem.readLE (s.srcBase.toNat + 2 * q) 2 % 1024 := by
  rw [Nat.mul_assoc] at hq
  cases fmt with
  | v210 => contradiction
  | planar =>
    obtain ⟨c, r, x, hr, hx, hoff⟩ := exists_offPlanar hw hq
    have hlt : offPlanar c w h r x + 2 ≤ 4 * w * h := offPlanar_lt hw hr hx
    rw [← hoff, readLE_planar hw hr hx hm, decodeFrame, sampleC16_of_le c (by omega), containerSample_toNat]
  | yuyv =>
    obtain ⟨c, r, x, hr, hx, hoff⟩ := exists_offYuyv hw hq
    have hlt : offYuyv c w r x + 2 ≤ 4 * w * h := offYuyv_lt hw hr hx
    rw [← hoff, readLE_yuyv hw hr hx hm, decodeFrame, sampleC16_of_le c (by omega), containerSample_toNat]

/-- Clean containers come back byte for byte. -/
theorem planar_clean {s : State} {m : Memory} {w h base : Nat} (hw : w % 2 = 0) (hlen : 4 * w * h ≤ s.srcLen.toNat)
    (hm : HoldsFrame .planar (decodeFrame .planar s w h) w h m base)
    (hclean : ∀ q, q < 2 * w * h → s.mem.readLE (s.srcBase.toNat + 2 * q) 2 < 1024) {j : Nat} (hj : j < 4 * w * h) :
    m.read (base + j) = s.mem.read (s.srcBase.toNat + j) := by
  refine Memory.read_of_units (u := 2) (n := 2 * w * h) (by decide) (fun q hq => ?_) ?_
  · rw [containers_of_holdsFrame (by decide) hw hlen hm hq, Nat.mod_eq_of_lt (hclean q hq)]
  · rwa [show 2 * (2 * w * h) = 4 * w * h by ring]

/-! ## v210 buffers -/

/-- Two buffers that show one picture in the v210 layout are equal byte by byte: the layout accounts for every bit. -/
theorem read_of_shows_v210 {m m' : Memory} {base base' w h : Nat} {P : Picture} (hm : Shows .v210 m base w h P)
    (hm' : Shows .v210 m' base' w h P) {j : Nat} (hj : j < bytesOf .v210 w h) :
    m.read (base + j) = m'.read (base' + j) := by
  have hsize : bytesOf .v210 w h = 4 * (32 * ((w + 48 - 1) / 48) * h) := by simp only [bytesOf]; ring
  refine Memory.read_of_units (u := 4) (by decide) (fun q hq => ?_) (hsize ▸ hj)
  obtain ⟨hr, hx, hsplit⟩ := grid_split hq
  generalize q / (32 * ((w + 48 - 1) / 48)) = r at hr hsplit
  generalize q % (32 * ((w + 48 - 1) / 48)) = x at hx hsplit
  obtain ⟨h0, h1, h2, h3⟩ := hm r hr (x / 4) (by omega)
  obtain ⟨h0', h1', h2', h3'⟩ := hm' r hr (x / 4) (by omega)
  have hword : ∀ b k, x % 4 = k → b + 4 * q = b + r * ((w + 48 - 1) / 48 * 128) + 16 * (x / 4) + 4 * k := by
    intro b k hk
    rw [← hsplit, show r * ((w + 48 - 1) / 48 * 128) = 4 * (r * (32 * ((w + 48 - 1) / 48))) by ring]
    omega
  have hslot : x % 4 = 0 ∨ x % 4 = 1 ∨ x % 4 = 2 ∨ x % 4 = 3 := by omega
  rcases hslot with hk | hk | hk | hk <;> rw [hword _ _ hk, hword _ _ hk]
  · exact h0.trans h0'.symm
  · exact h1.trans h1'.symm
  · exact h2.trans h2'.symm
  · exact h3.trans h3'.symm

/-- What a v210 buffer shows depends on its bytes alone. -/
theorem shows_v210_of_read {m m' : Memory} {base base' w h : Nat} {P : Picture}
    (hread : ∀ j, j < bytesOf .v210 w h → m.read (base + j) = m'.read (base' + j))
    (hm : Shows .v210 m base w h P) : Shows .v210 m' base' w h P := by
  intro r hr g hg
  have hword : ∀ k, k < 4 → m'.readLE (base' + r * ((w + 48 - 1) / 48 * 128) + 16 * g + 4 * k) 4 =
      m.readLE (base + r * ((w + 48 - 1) / 48 * 128) + 16 * g + 4 * k) 4 := by
    intro k hk
    have hlt : offV210 w r g k + 4 ≤ bytesOf .v210 w h := frameBytes_eq_bytesOf .v210 w h ▸ offV210_lt hr hg hk
    refine Memory.readLE_congr fun i hi => ?_
    have hbyte := hread (offV210 w r g k + i) (by omega)
    simp only [offV210, lineBytes, ceilDiv, ← Nat.add_assoc] at hbyte
    exact hbyte.symm
  obtain ⟨h0, h1, h2, h3⟩ := hm r hr g hg
  exact ⟨(hword 0 (by decide)).trans h0, (hword 1 (by decide)).trans h1, (hword 2 (by decide)).trans h2,
    (hword 3 (by decide)).trans h3⟩

/-- A destination that holds what a source decodes to shows the source's picture. -/
theorem DestIs.shows {fin fout : Layout} {s t : State} {w h : Nat} (ht : DestIs fout (decodeFrame fin s w h) w h t) :
    Shows fout t.mem t.dstBase.toNat w h (sourcePicture fin s w h) :=
  decodeFrame_picture fin s w h ▸ shows_encodeFrame ht.even ht.bytes

end Sys2Proof.Machine
end

/-! The statements about layouts, round trips, composition and the pseudo-instruction V210_TO_YUYV. -/

section
namespace Sys2Proof.Machine

/-! ## Pad and crop as transforms -/

/-- Padding lines and cutting or adding lines do not interfere (42_geometry.md "Composition"). -/
theorem pad_crop_comm (w h wt ht : Nat) (F : Frame) :
    transformCropH.apply wt h ht (transformPadW.apply w h wt F) =
      transformPadW.apply w ht wt (transformCropH.apply w h ht F) := by
  funext c r x
  simp only [transformCropH, transformPadW]
  by_cases hr : r < h
  · simp only [if_pos hr]
  · simp only [if_neg hr, ite_self]

/-- PAD_WIDTH then CROP_PAD_HEIGHT, on a source that decodes to F. -/
theorem destIs_of_pad_crop {pad crop : Instr} {fmt : Layout} {k1 k2 : Bool} {s t1 t2 : State} {F : Frame}
    {d n ht : Word} (hpad : ∀ u, exec pad u = .next (frameCommand fmt fmt transformPadW k1 u))
    (hcrop : ∀ u, exec crop u = .next (frameCommand fmt fmt transformCropH k2 u)) (hF : SourceIs fmt F s)
    (h1 : Completes pad s t1) (h2 : Completes crop (t1.chain d n s.target s.height ht) t2) :
    DestIs fmt (transformCropH.apply s.target.toNat s.height.toNat ht.toNat
      (transformPadW.apply s.width.toNat s.height.toNat s.target.toNat F)) s.target.toNat ht.toNat t2 :=
  destIs_of_completes .cropH (hcrop _) h2 (destIs_of_completes .padW (hpad _) h1 hF).chain

/-- CROP_PAD_HEIGHT then PAD_WIDTH, on a source that decodes to F. -/
theorem destIs_of_crop_pad {pad crop : Instr} {fmt : Layout} {k1 k2 : Bool} {s u1 u2 : State} {F : Frame}
    {d n wt : Word} (hpad : ∀ u, exec pad u = .next (frameCommand fmt fmt transformPadW k1 u))
    (hcrop : ∀ u, exec crop u = .next (frameCommand fmt fmt transformCropH k2 u)) (hF : SourceIs fmt F s)
    (h1 : Completes crop s u1) (h2 : Completes pad (u1.chain d n s.width s.target wt) u2) :
    DestIs fmt (transformPadW.apply s.width.toNat s.target.toNat wt.toNat
      (transformCropH.apply s.width.toNat s.height.toNat s.target.toNat F)) wt.toNat s.target.toNat u2 :=
  destIs_of_completes .padW (hpad _) h2 (destIs_of_completes .cropH (hcrop _) h1 hF).chain

/-- Two destinations that hold one frame are equal in length and byte by byte. -/
theorem DestIs.read_eq {fmt : Layout} {F : Frame} {w h : Nat} {t u : State} (ht : DestIs fmt F w h t)
    (hu : DestIs fmt F w h u) {k : Nat} (hk : k < frameBytes fmt w h) :
    t.mem.read (t.dstBase.toNat + k) = u.mem.read (u.dstBase.toNat + k) := by
  have hlen : k < (encodeFrame fmt F w h).length := by rwa [encodeFrame_length]
  rw [ht.bytes k hlen, hu.bytes k hlen]

/-! ## V210_TO_YUYV -/

theorem run_setSrc {s t : State} {a len : Word} {rest : List HostAction} {n : Nat}
    (hp : s.pending = setSrc a len ++ rest) (ht : { s.taken rest with srcBase := a, srcLen := len } = t) :
    Host.Core.run core (n + 2) s = Host.Core.run core n t := by
  rw [run_wr (t := { s.taken (wr .srcLen len :: rest) with srcBase := a }) (by decide) hp rfl]
  exact run_wr (reg := .srcLen) (by decide) rfl ht

theorem run_setDst {s t : State} {a len : Word} {rest : List HostAction} {n : Nat}
    (hp : s.pending = setDst a len ++ rest) (ht : { s.taken rest with dstBase := a, dstLen := len } = t) :
    Host.Core.run core (n + 2) s = Host.Core.run core n t := by
  rw [run_wr (t := { s.taken (wr .dstLen len :: rest) with dstBase := a }) (by decide) hp rfl]
  exact run_wr (reg := .dstLen) (by decide) rfl ht

/-- The actions of `V210_TO_YUYV` that stay to come while its first command runs. -/
def v210ToYuyvTail (tmp n d dn : Word) : List HostAction :=
  setSrc tmp n ++ (setDst d dn ++ [issue (.packYuyv false)])

/-- Where the first command of `V210_TO_YUYV tmp, tn` runs. -/
def State.unpacking (s : State) (tmp tn n d dn : Word) : State :=
  { s.taken (v210ToYuyvTail tmp n d dn) with dstBase := tmp, dstLen := tn, cmd := encode (.unpackV210 false) }

/-- Where its second command runs: the temporary buffer, n bytes, is the source, and (d, dn) the destination. -/
def State.packing (s : State) (tmp n d dn : Word) : State :=
  { s.taken [] with srcBase := tmp, srcLen := n, dstBase := d, dstLen := dn, cmd := encode (.packYuyv false) }

/-- The eight host actions are the two commands, each on the state its register writes have set up. -/
theorem run_v210ToYuyv {s t1 t : State} {tmp tn n d dn : Word} (hp : s.pending = v210ToYuyv tmp tn n d dn)
    (hx1 : exec (.unpackV210 false) (s.unpacking tmp tn n d dn) = .next t1)
    (hx2 : exec (.packYuyv false) (t1.packing tmp n d dn) = .next t) : Host.Core.run core 8 s = .next t := by
  have hp1 : t1.pending = v210ToYuyvTail tmp n d dn := by rw [exec_writes_only hx1]; rfl
  rw [run_setDst (t := { s.taken (issue (.unpackV210 false) :: v210ToYuyvTail tmp n d dn) with
      dstBase := tmp, dstLen := tn }) hp rfl,
    run_issue_encode rfl hx1,
    run_setSrc (t := { t1.taken (setDst d dn ++ [issue (.packYuyv false)]) with srcBase := tmp, srcLen := n }) hp1 rfl,
    run_setDst (t := { t1.taken [issue (.packYuyv false)] with
      srcBase := tmp, srcLen := n, dstBase := d, dstLen := dn }) rfl rfl]
  exact run_issue_encode (n := 0) rfl hx2

/-! ## The statements -/

/-- Settles O47. -/
theorem decodeAfterEncodeIsTheIdentity : Obligations.DecodeAfterEncodeIsTheIdentity :=
  fun _ _ _ _ _ hw _ _ hlen hm =>
    ⟨decodeFrame_of_holdsFrame hw hlen hm, decide_eq_false (Nat.not_lt.2 hlen)⟩

/-- Settles O48: after each command the destination holds the frame the planar source decodes to. -/
theorem planarRoundTrips : Obligations.PlanarRoundTrips := by
  intro s t1 t2 k1 k2 d n w h hlen Same
  have hsame : ∀ t : State, DestIs .planar (decodeFrame .planar s w h) w h t → Same t t.dstBase.toNat :=
    fun t ht => ⟨fun q hq => containers_of_holdsFrame (by decide) ht.even hlen ht.bytes hq,
      fun hclean j hj => planar_clean ht.even hlen ht.bytes hclean hj⟩
  have hsource := sourceIs_decodeFrame .planar s
  refine ⟨fun h1 h2 => ?_, fun h1 h2 => ?_, fun t3 t4 k3 k4 d' n' d'' n'' h1 h2 h3 h4 => ?_⟩
  · have hd1 := destIs_of_convert rfl h1 hsource
    have hd2 := destIs_of_convert rfl h2 hd1.chain
    exact completes_chain_dstBase h2 ▸ hsame t2 hd2
  · have hd1 := destIs_of_convert rfl h1 hsource
    have hd2 := destIs_of_convert rfl h2 hd1.chain
    exact completes_chain_dstBase h2 ▸ hsame t2 hd2
  · have hd1 := destIs_of_convert rfl h1 hsource
    have hd2 := destIs_of_convert rfl h2 hd1.chain
    have hd3 := destIs_of_convert rfl h3 (DestIs.chain hd2)
    have hd4 := destIs_of_convert rfl h4 (DestIs.chain hd3)
    exact completes_chain_dstBase h4 ▸ hsame t4 hd4

/-- Settles O49: the packed buffer comes back with the samples it held, and in the v210 layout every other bit zero. -/
theorem packedRoundTrips : Obligations.PackedRoundTrips := by
  intro s t1 t2 k1 k2 d n w h
  refine ⟨fun hlen h1 h2 q hq => ?_, fun _ h1 h2 => ?_⟩
  · have hd1 := destIs_of_convert rfl h1 (sourceIs_decodeFrame .yuyv s)
    have hd2 := destIs_of_convert rfl h2 hd1.chain
    have hcontainer := containers_of_holdsFrame (by decide) hd2.even hlen hd2.bytes hq
    rwa [completes_chain_dstBase h2] at hcontainer
  · have hd1 := destIs_of_convert rfl h1 (sourceIs_decodeFrame .v210 s)
    have hd2 := destIs_of_convert rfl h2 hd1.chain
    have hshows := DestIs.shows (s := s) (w := w) (h := h) hd2
    rw [completes_chain_dstBase h2] at hshows
    exact ⟨hshows, fun hread => shows_v210_of_read hread hshows,
      fun hclean j hj => read_of_shows_v210 hshows hclean hj⟩

/-- The two orders of PAD_WIDTH and CROP_PAD_HEIGHT leave the same bytes. -/
theorem pad_crop_same_bytes {pad crop : Instr} {fmt : Layout} {k1 k2 : Bool} {s t1 t2 u1 u2 : State}
    {wt ht m1 n1 m2 n2 d n : Word} (hpad : ∀ u, exec pad u = .next (frameCommand fmt fmt transformPadW k1 u))
    (hcrop : ∀ u, exec crop u = .next (frameCommand fmt fmt transformCropH k2 u))
    (h1 : Completes pad { s with dstBase := m1, dstLen := n1, target := wt } t1)
    (h2 : Completes crop (t1.chain d n wt s.height ht) t2)
    (h3 : Completes crop { s with dstBase := m2, dstLen := n2, target := ht } u1)
    (h4 : Completes pad (u1.chain d n s.width ht wt) u2) :
    t2.outLen = u2.outLen ∧ t2.outLen.toNat = bytesOf fmt wt.toNat ht.toNat ∧
    ∀ k, k < t2.outLen.toNat → t2.mem.read (d.toNat + k) = u2.mem.read (d.toNat + k) := by
  have ht2 := destIs_of_pad_crop hpad hcrop (sourceIs_decodeFrame fmt _) h1 h2
  have hu2 := destIs_of_crop_pad hpad hcrop (sourceIs_decodeFrame fmt _) h3 h4
  rw [pad_crop_comm] at ht2
  refine ⟨BitVec.eq_of_toNat_eq (ht2.length.trans hu2.length.symm), ?_, fun k hk => ?_⟩
  · rw [ht2.length, frameBytes_eq_bytesOf]
  · have hread := ht2.read_eq hu2 (ht2.length ▸ hk)
    rwa [completes_chain_dstBase h2, completes_chain_dstBase h4] at hread

/-- Settles O50, layout by layout. -/
theorem padAndCropCommute : Obligations.PadAndCropCommute := by
  intro fmt pad crop k1 k2 hi s t1 t2 u1 u2 wt ht m1 n1 m2 n2 d n
  simp only [List.mem_cons, Prod.mk.injEq, List.not_mem_nil, or_false] at hi
  rcases hi with ⟨rfl, rfl, rfl⟩ | ⟨rfl, rfl, rfl⟩ | ⟨rfl, rfl, rfl⟩ <;>
    exact pad_crop_same_bytes (fun _ => rfl) (fun _ => rfl)

/-- Settles O51: UNPACK_V210 leaves the frame in the temporary buffer, and PACK_YUYV packs what it finds there. -/
theorem v210ToYuyvShowsTheSource : Obligations.V210ToYuyvShowsTheSource := by
  intro s tmp tn d dn w h s1 n s2 hready1 hready2 hp
  have hex1 := exec_convert_of_ready (i := .unpackV210 false) (strict := false) (s := s.unpacking tmp tn n d dn) rfl
    ⟨hready1.geometry, hready1.source, hready1.dest, hready1.disjoint, hready1.fits, hready1.long⟩
  have hex2 := exec_convert_of_ready (i := .packYuyv false) (strict := false)
    (s := (frameCommit .v210 .planar transformId (s.unpacking tmp tn n d dn)).packing tmp n d dn) rfl
    ⟨hready2.geometry, hready2.source, hready2.dest, hready2.disjoint, hready2.fits, hready2.long⟩
  have hd1 := destIs_of_convert rfl ⟨hex1, rfl⟩ (sourceIs_decodeFrame .v210 _)
  have hd2 := destIs_of_convert rfl ⟨hex2, rfl⟩ (hd1.sourceIs rfl rfl rfl rfl rfl)
  exact ⟨_, run_v210ToYuyv hp hex1 hex2, rfl, rfl, rfl, DestIs.shows (s := s) (w := w) (h := h) hd2⟩

end Sys2Proof.Machine
end
